-- ==== Sys2Proof/Word.lean ====
section
/-! DEFINITION. The widths of R13: a byte is 8 bits, a halfword 16, a word 32, all unsigned. -/

namespace Sys2Proof

/-- A byte (R13). -/
abbrev Byte := BitVec 8

/-- A halfword (R13): the width of `RSP.VALUE` and of the CRC register. -/
abbrev Half := BitVec 16

/-- A word (R13): a command word, an address, a descriptor word, a transmit-buffer word. -/
abbrev Word := BitVec 32

end Sys2Proof
end

