-- ==== Sys2Proof/Config.lean ====
section
/-! DEFINITION. The parameters of R11 that the spec leaves OPEN. R41: they are constants of a configuration,
not state; a model takes them as arguments and never writes them. `exec` and `step` have no argument for them, so the
configuration travels as a field of `State` that nothing writes (log entry 1); a statement about every state
is therefore a statement about every configuration. -/

namespace Sys2Proof

/-- The builder instances `db0`, `db1`, `db2` (R40); the last exists only where `N_DB = 3`. -/
inductive DbId where
  | db0
  | db1
  | db2
  deriving DecidableEq, Repr

/-- A unit instance: the one framer `fr0` (`N_FR = 1`), or a builder (R40, R110). -/
inductive UnitId where
  | fr0
  | db (k : DbId)
  deriving DecidableEq, Repr

/-- `N_DB`: OPEN, 2 or 3 (R11). -/
inductive DbCount where
  | two
  | three
  deriving DecidableEq, Repr

/-- `ECC_MASKS` (R121): six 24-bit masks, one for each parity bit. -/
structure EccMasks where
  p0 : BitVec 24
  p1 : BitVec 24
  p2 : BitVec 24
  p3 : BitVec 24
  p4 : BitVec 24
  p5 : BitVec 24
  deriving DecidableEq, Repr

/-- The default masks of R121 (log entry 13). -/
def EccMasks.standard : EccMasks :=
  { p0 := 0xF12CB7, p1 := 0xF2555B, p2 := 0x749A6D, p3 := 0xB8E38E, p4 := 0xDF03F0, p5 := 0xEFFC00 }

/-- `DESC_LAYOUT` (R105): the bit of DES0 that each flag takes. -/
structure DescLayout where
  own : Fin 32
  err : Fin 32
  ch  : Fin 32
  fd  : Fin 32
  ld  : Fin 32
  dic : Fin 32
  deriving DecidableEq, Repr

/-- The default layout of R105 (log entry 13). -/
def DescLayout.standard : DescLayout :=
  { own := 31, err := 30, ch := 4, fd := 3, ld := 2, dic := 1 }

/-- The six flags take six different bits. -/
abbrev DescLayout.wf (y : DescLayout) : Prop :=
  [y.own, y.err, y.ch, y.fd, y.ld, y.dic].Nodup

/-- The addresses `[base, base + size)`. -/
structure AddrRange where
  base : Nat
  size : Nat
  deriving DecidableEq, Repr

/-- The OPEN parameters of R11. `REGMAP` is left at its default, none (log entry 12). -/
structure Config where
  eccMasks : EccMasks
  descLayout : DescLayout
  nDb : DbCount
  /-- `SIZE_FIELD_BITS[0]` -/
  sizeFieldBits0 : Nat
  /-- `SIZE_FIELD_BITS[1]` -/
  sizeFieldBits1 : Nat
  /-- `SIZE_FIELD_BITS[2]` -/
  sizeFieldBits2 : Nat
  /-- `DMA_POOL` (R72), as ranges. No operation consults it (U20); Safety.lean states the requester's obligation. -/
  dmaPool : List AddrRange
  deriving DecidableEq, Repr

/-- `SIZE_FIELD_BITS[k]`. -/
def Config.sizeFieldBits (c : Config) : DbId → Nat
  | .db0 => c.sizeFieldBits0
  | .db1 => c.sizeFieldBits1
  | .db2 => c.sizeFieldBits2

/-- Whether the instance exists under `N_DB` (R40). -/
def Config.hasDb (c : Config) : DbId → Bool
  | .db0 => true
  | .db1 => true
  | .db2 => c.nDb == .three

/-- Whether the unit instance exists. -/
def Config.hasUnit (c : Config) : UnitId → Bool
  | .fr0 => true
  | .db k => c.hasDb k

/-- What a configuration must satisfy to be one the spec admits: the flags take different bits of DES0, and every size
field fits the 32-bit DES1. -/
abbrev Config.wf (c : Config) : Prop :=
  c.descLayout.wf ∧ c.sizeFieldBits0 ≤ 32 ∧ c.sizeFieldBits1 ≤ 32 ∧ c.sizeFieldBits2 ≤ 32

/-- The spec's defaults (R11). `N_DB = 3` and the pool of all addresses are DESIGN CHOICES: R11 gives neither a default
(log entry 2). -/
def Config.default : Config :=
  { eccMasks := .standard, descLayout := .standard, nDb := .three,
    sizeFieldBits0 := 16, sizeFieldBits1 := 16, sizeFieldBits2 := 16,
    dmaPool := [{ base := 0, size := 2 ^ 32 }] }

/-- `TXBUF_BYTES` (R11). -/
def txbufBytes : Nat := 256

/-- `DESC_BYTES` (R11). -/
def descBytes : Nat := 16

end Sys2Proof
end

