-- ==== Sys2Proof/Syntax.lean ====
section
/-! DEFINITION. The operations of the opcode table as syntax (R91, R110, R111), and the request latches (R33) they
are decoded from. -/

namespace Sys2Proof

/-- One constructor for each row of spec/opcode_table.json. A builder operation carries the instance it is addressed to,
as the `@k:` of R110 does; the framer is the one instance `fr0`. -/
inductive Instr where
  /-- `ECC h0, h1, h2` (R125) -/
  | ecc (h0 h1 h2 : Byte)
  /-- `CRC [b0, …]` (R146) -/
  | crc (data : List Byte)
  /-- `SHORT [b0]`, `SHORT [b0, b1]` (R160); any other length decodes as SHORT and faults -/
  | short (data : List Byte)
  /-- `LONG [b0, …]` (R165) -/
  | long (data : List Byte)
  /-- `FRAME [b0, …]` (R170) -/
  | frame (data : List Byte)
  /-- `FRAMEW [b0, …]` (R176) -/
  | framew (data : List Byte)
  /-- `@k: BUILD.TO buf, L, M, desc` (R200, DIR 0) -/
  | buildTo (k : DbId) (buf l m desc : Word)
  /-- `@k: BUILD.FROM buf, L, M, desc` (R200, DIR 1) -/
  | buildFrom (k : DbId) (buf l m desc : Word)
  /-- `@k: RELEASE` (R212) -/
  | release (k : DbId)
  /-- `@k: EV_ENABLED` (R215) -/
  | evEnabled (k : DbId)
  /-- `@k: EV_COMPLETE` (R219) -/
  | evComplete (k : DbId)
  /-- the pseudo-instruction `SENDCMD [b0, …]` (R111) -/
  | sendcmd (data : List Byte)
  /-- the pseudo-instruction `@k: BUILD.W buf, L, M, desc` (R111) -/
  | buildW (k : DbId) (buf l m desc : Word)
  /-- the pseudo-instruction `@k: BUILD.R buf, L, M, desc` (R111) -/
  | buildR (k : DbId) (buf l m desc : Word)
  /-- the output format PKT_05 (R96): the packet with tag 0x05 and one data byte; no command word stands for it -/
  | pkt05 (d0 : Byte)
  /-- the output format PKT_15 (R96): the packet with tag 0x15 and two data bytes; no command word stands for it -/
  | pkt15 (d0 d1 : Byte)
  /-- the output format PKT_39 (R97): the packet with tag 0x39 and a payload; no command word stands for it -/
  | pkt39 (payload : List Byte)
  /-- the row `(reserved)` (R92): a command word at instance `u` that is no row of R91, with the data bytes its LEN
  counts -/
  | reserved (u : UnitId) (cw : Word) (data : List Byte)
  deriving DecidableEq, Repr

/-- Whether the instruction is one of the three output formats, which are no commands. -/
def Instr.isOutputFormat : Instr → Bool
  | .pkt05 _ => true
  | .pkt15 _ _ => true
  | .pkt39 _ => true
  | .ecc _ _ _ => false
  | .crc _ => false
  | .short _ => false
  | .long _ => false
  | .frame _ => false
  | .framew _ => false
  | .buildTo _ _ _ _ _ => false
  | .buildFrom _ _ _ _ _ => false
  | .release _ => false
  | .evEnabled _ => false
  | .evComplete _ => false
  | .sendcmd _ => false
  | .buildW _ _ _ _ _ => false
  | .buildR _ _ _ _ _ => false
  | .reserved _ _ _ => false

/-- The operation a pseudo-instruction expands to (R111); every other instruction stands for itself. -/
def Instr.expand : Instr → Instr
  | .sendcmd data => .framew data
  | .buildW k buf l m desc => .buildTo k buf l m desc
  | .buildR k buf l m desc => .buildFrom k buf l m desc
  | .ecc h0 h1 h2 => .ecc h0 h1 h2
  | .crc data => .crc data
  | .short data => .short data
  | .long data => .long data
  | .frame data => .frame data
  | .framew data => .framew data
  | .buildTo k buf l m desc => .buildTo k buf l m desc
  | .buildFrom k buf l m desc => .buildFrom k buf l m desc
  | .release k => .release k
  | .evEnabled k => .evEnabled k
  | .evComplete k => .evComplete k
  | .pkt05 d0 => .pkt05 d0
  | .pkt15 d0 d1 => .pkt15 d0 d1
  | .pkt39 payload => .pkt39 payload
  | .reserved u cw data => .reserved u cw data

/-- The request latches of one instance (R33). -/
structure Request where
  /-- `REQ.CW` -/
  cw : Word
  /-- `REQ.DATA`, `REQ.CW.LEN` bytes -/
  data : List Byte
  /-- `REQ.BUF` -/
  buf : Word
  /-- `REQ.L` -/
  l : Word
  /-- `REQ.M` -/
  m : Word
  /-- `REQ.DESC` -/
  desc : Word
  deriving DecidableEq, Repr

end Sys2Proof
end

