-- ==== Sys2Proof/Decode.lean ====
section
/-! DEFINITION. From bytes to a request (R94), from a request to an instruction (R90 to R93), and the encoder, written
from the same tables. Also the packet reader of R100. Decoding a request never fails: a word outside the table is the instruction
`reserved` (R92). Only a request cut short is rejected, by name (R94). -/

namespace Sys2Proof

/-! ## Byte order (R62, R94) -/

/-- The four bytes of a word, least significant first. -/
def leBytes (v : Word) : List Byte :=
  [v.extractLsb' 0 8, v.extractLsb' 8 8, v.extractLsb' 16 8, v.extractLsb' 24 8]

/-- The word of four bytes, least significant first. -/
def leWord (b0 b1 b2 b3 : Byte) : Word :=
  b0.setWidth 32 ||| (b1.setWidth 32 <<< 8) ||| (b2.setWidth 32 <<< 16) ||| (b3.setWidth 32 <<< 24)

/-! ## The command word (R90) -/

/-- `OPSEL`, bits 7:0. -/
def cwOpsel (cw : Word) : Byte := cw.extractLsb' 0 8

/-- `DIR`, bit 8. -/
def cwDir (cw : Word) : Bool := cw.getLsbD 8

/-- `RSV`, bits 15:9. -/
def cwRsv (cw : Word) : BitVec 7 := cw.extractLsb' 9 7

/-- `LEN`, bits 31:16, as a number. -/
def cwLen (cw : Word) : Nat := (cw.extractLsb' 16 16).toNat

/-- The command word of the given fields, with RSV zero. -/
def mkCw (opsel : Byte) (dir : Bool) (len : Nat) : Word :=
  opsel.setWidth 32 ||| (if dir then (0x100 : Word) else (0 : Word)) ||| (BitVec.ofNat 32 len <<< 16)

/-- The ten operations that OPSEL selects (R91). -/
inductive Op where
  | ecc
  | crc
  | short
  | long
  | frame
  | framew
  | build
  | release
  | evEnabled
  | evComplete
  deriving DecidableEq, Repr

/-- The table of R91, read from an OPSEL value. -/
def opOfOpsel (b : Byte) : Option Op :=
  if b = 0x01 then some .ecc
  else if b = 0x02 then some .crc
  else if b = 0x03 then some .short
  else if b = 0x04 then some .long
  else if b = 0x05 then some .frame
  else if b = 0x06 then some .framew
  else if b = 0x10 then some .build
  else if b = 0x11 then some .release
  else if b = 0x12 then some .evEnabled
  else if b = 0x13 then some .evComplete
  else none

/-- The table of R91, read the other way. -/
def opselOfOp : Op → Byte
  | .ecc => 0x01
  | .crc => 0x02
  | .short => 0x03
  | .long => 0x04
  | .frame => 0x05
  | .framew => 0x06
  | .build => 0x10
  | .release => 0x11
  | .evEnabled => 0x12
  | .evComplete => 0x13

/-- Whether the operation is the builder's (R91, column unit). -/
def opIsDb : Op → Bool
  | .ecc => false
  | .crc => false
  | .short => false
  | .long => false
  | .frame => false
  | .framew => false
  | .build => true
  | .release => true
  | .evEnabled => true
  | .evComplete => true

/-- Whether the instance is a builder. -/
def unitIsDb : UnitId → Bool
  | .fr0 => false
  | .db _ => true

/-- The six cases of R92, in its order. -/
def cwMalformed (u : UnitId) (cw : Word) : Bool :=
  match opOfOpsel (cwOpsel cw) with
  | none => true
  | some op =>
    (opIsDb op != unitIsDb u) || (cwRsv cw != 0) || (cwDir cw && op != .build) ||
      (op == .ecc && cwLen cw != 3) || (opIsDb op && cwLen cw != 0)

/-- Whether the word is a well-formed BUILD at this instance, the one request that carries the four operand words. -/
def cwIsBuild (u : UnitId) (cw : Word) : Bool :=
  !cwMalformed u cw && opOfOpsel (cwOpsel cw) == some .build

/-! ## Bytes to request (R93, R94) -/

/-- Why bytes are not yet a request. -/
inductive DecodeError where
  /-- fewer than the four bytes of a command word -/
  | truncatedWord
  /-- fewer bytes after the command word than the request has (R94: it is never performed; the port holds it) -/
  | truncatedBody
  deriving DecidableEq, Repr

/-- How many bytes follow the command word: 16 for BUILD, else LEN (R93). That a malformed word is followed by LEN bytes
is DEDUCED from R93's "from LEN alone" and the programs P3 and P4 (log entry 5). -/
def bodyLength (u : UnitId) (cw : Word) : Nat :=
  if cwIsBuild u cw then 16 else cwLen cw

/-- The word at byte offset `i` of a request's body. -/
def wordAt (bs : List Byte) (i : Nat) : Word :=
  leWord (bs.getD i 0) (bs.getD (i + 1) 0) (bs.getD (i + 2) 0) (bs.getD (i + 3) 0)

/-- The request latches a command word and its body fill. Latches the operation does not use take 0; R33: their value has
no effect (log entry 6). -/
def requestOf (u : UnitId) (cw : Word) (body : List Byte) : Request :=
  if cwIsBuild u cw then
    { cw, data := [], buf := wordAt body 0, l := wordAt body 4, m := wordAt body 8, desc := wordAt body 12 }
  else { cw, data := body, buf := 0, l := 0, m := 0, desc := 0 }

/-- Reads one serialised request from the front of the bytes (R94). -/
def parseRequest (u : UnitId) (bs : List Byte) : Except DecodeError (Request × List Byte) :=
  match bs with
  | b0 :: b1 :: b2 :: b3 :: rest =>
    let cw := leWord b0 b1 b2 b3
    let n := bodyLength u cw
    if rest.length < n then .error .truncatedBody
    else .ok (requestOf u cw (rest.take n), rest.drop n)
  | _ => .error .truncatedWord

/-! ## Request to instruction -/

/-- The instruction of an operation of the addressed instance (R91, R93). The last arm is the operation of the other unit (R92
item 2). -/
def instrOfOp (op : Op) (u : UnitId) (r : Request) : Instr :=
  match op, u with
  | .ecc, .fr0 =>
    match r.data with
    | [h0, h1, h2] => .ecc h0 h1 h2
    | _ => .reserved u r.cw r.data
  | .crc, .fr0 => .crc r.data
  | .short, .fr0 => .short r.data
  | .long, .fr0 => .long r.data
  | .frame, .fr0 => .frame r.data
  | .framew, .fr0 => .framew r.data
  | .build, .db k =>
    if cwDir r.cw then .buildFrom k r.buf r.l r.m r.desc else .buildTo k r.buf r.l r.m r.desc
  | .release, .db k => .release k
  | .evEnabled, .db k => .evEnabled k
  | .evComplete, .db k => .evComplete k
  | _, _ => .reserved u r.cw r.data

/-- The instruction a request at instance `u` stands for (R90 to R93): `reserved` where the word is malformed. -/
def decode (u : UnitId) (r : Request) : Instr :=
  if cwMalformed u r.cw then .reserved u r.cw r.data
  else
    match opOfOpsel (cwOpsel r.cw) with
    | some op => instrOfOp op u r
    | none => .reserved u r.cw r.data

/-- Reads one instruction from the front of the bytes held at instance `u`. -/
def decodeBytes (u : UnitId) (bs : List Byte) : Except DecodeError (Instr × List Byte) :=
  match parseRequest u bs with
  | .ok (r, rest) => .ok (decode u r, rest)
  | .error e => .error e

/-! ## The encoder -/

/-- The four operand words of BUILD, in the order of R94. -/
def buildBody (buf l m desc : Word) : List Byte :=
  leBytes buf ++ leBytes l ++ leBytes m ++ leBytes desc

/-- The instance an instruction is addressed to and its serialised request (R94). The output formats are no requests. -/
def encode : Instr → Option (UnitId × List Byte)
  | .ecc h0 h1 h2 => some (.fr0, leBytes (mkCw 0x01 false 3) ++ [h0, h1, h2])
  | .crc data => some (.fr0, leBytes (mkCw 0x02 false data.length) ++ data)
  | .short data => some (.fr0, leBytes (mkCw 0x03 false data.length) ++ data)
  | .long data => some (.fr0, leBytes (mkCw 0x04 false data.length) ++ data)
  | .frame data => some (.fr0, leBytes (mkCw 0x05 false data.length) ++ data)
  | .framew data => some (.fr0, leBytes (mkCw 0x06 false data.length) ++ data)
  | .buildTo k buf l m desc => some (.db k, leBytes (mkCw 0x10 false 0) ++ buildBody buf l m desc)
  | .buildFrom k buf l m desc => some (.db k, leBytes (mkCw 0x10 true 0) ++ buildBody buf l m desc)
  | .release k => some (.db k, leBytes (mkCw 0x11 false 0))
  | .evEnabled k => some (.db k, leBytes (mkCw 0x12 false 0))
  | .evComplete k => some (.db k, leBytes (mkCw 0x13 false 0))
  | .sendcmd data => some (.fr0, leBytes (mkCw 0x06 false data.length) ++ data)
  | .buildW k buf l m desc => some (.db k, leBytes (mkCw 0x10 false 0) ++ buildBody buf l m desc)
  | .buildR k buf l m desc => some (.db k, leBytes (mkCw 0x10 true 0) ++ buildBody buf l m desc)
  | .pkt05 _ => none
  | .pkt15 _ _ => none
  | .pkt39 _ => none
  | .reserved u cw data => some (u, leBytes cw ++ data)

/-! ## The reader of framed packets (R100), for a receiver or a checker; the block has none (R126) -/

/-- The length of the packet at the front of the bytes, from its first three (R100). -/
def packetLength : List Byte → Option Nat
  | tag :: h1 :: h2 :: _ =>
    if tag = 0x05 then some 4
    else if tag = 0x15 then some 4
    else if tag = 0x39 then some (6 + (h1.toNat + 256 * h2.toNat))
    else none
  | _ => none

/-- The packet at the front of the bytes as its output format, with the rest of the bytes. It checks neither ECC nor CRC:
R100 and R126 give no such check (log entry 19). -/
def decodePacket (bs : List Byte) : Option (Instr × List Byte) :=
  match packetLength bs with
  | none => none
  | some n =>
    if bs.length < n then none
    else if bs.getD 0 0 = 0x05 then some (.pkt05 (bs.getD 1 0), bs.drop n)
    else if bs.getD 0 0 = 0x15 then some (.pkt15 (bs.getD 1 0) (bs.getD 2 0), bs.drop n)
    else some (.pkt39 ((bs.drop 4).take (n - 6)), bs.drop n)

/-! ## The host's question about one word of the opcode table -/

/-- The instance a request goes to where no `@k:` is written: FR operations to fr0, DB operations to db0 (R110). A word
that selects no operation goes to fr0. -/
def defaultUnit (cw : Word) : UnitId :=
  match opOfOpsel (cwOpsel cw) with
  | some op => if opIsDb op then .db .db0 else .fr0
  | none => .fr0

/-- The command word of an instruction's bits: its low 32, the bits above `nbits` zero. -/
def tableCw (nbits w : Nat) : Word := BitVec.ofNat 32 (w % 2 ^ nbits)

/-- The serialised request whose bits are `w`, the bits above `nbits` zero, as long as its command word says. -/
def tableBytes (nbits w : Nat) : List Byte :=
  (List.range (4 + bodyLength (defaultUnit (tableCw nbits w)) (tableCw nbits w))).map
    fun i => BitVec.ofNat 8 ((w % 2 ^ nbits) >>> (8 * i))

/-- The instruction the decoder reads from a word of the opcode table. -/
def decodeTableWord (nbits w : Nat) : Option Instr :=
  match decodeBytes (defaultUnit (tableCw nbits w)) (tableBytes nbits w) with
  | .ok (i, _) => some i
  | .error _ => none

end Sys2Proof
end

