-- ==== Sys2Proof/Machine/State.lean ====
section
/-! DEFINITION. Everything the spec gives the machine, as plain data (10_state.md, 20_memory.md, 70_reset_and_hazards.md
R280), and the machine right after reset. -/

namespace Sys2Proof.Machine

open Sys2Proof

/-! ## Status codes (R250) -/

/-- The status codes of R250, by name. `RSP.STATUS` and `DB.FAULT_CODE` hold the code itself, a byte. -/
inductive Status where
  | ok
  | shortLen
  | frameEmpty
  | txbufOverflow
  | malformed
  | chainLen
  | chainChunk
  | chainAlign
  | chainAddr
  | chainOverlap
  | chainBusy
  | releaseOwned
  | releaseNone
  | eventOrder
  | sticky
  deriving DecidableEq, Repr

/-! ## Latches and registers of one unit instance -/

/-- The request side of one instance: the request latches (R33), and the bytes of requests the requester has sent that
wait at the port (R43, R94), oldest first. -/
structure Port where
  /-- the latches `REQ.CW`, `REQ.DATA`, `REQ.BUF`, `REQ.L`, `REQ.M`, `REQ.DESC`; none where no request is held (R280) -/
  latch : Option Request
  /-- serialised requests, whole or cut short, held at the port -/
  wire : List Byte
  deriving DecidableEq, Repr

/-- The response latches (R34). -/
structure Rsp where
  /-- `RSP.STATUS` -/
  status : Byte
  /-- `RSP.VALUE` -/
  value : Half
  /-- `RSP.COUNT` -/
  count : Word
  /-- `RSP.BYTES` -/
  bytes : List Byte
  /-- `RSP.WORDS` -/
  words : List Word
  /-- `RSP.PKTLEN_M1` -/
  pktlenM1 : Byte
  deriving DecidableEq, Repr

/-- `DB.CHAIN_STATE` (R35); its four encodings, 0 to 3, are all used. -/
inductive ChainState where
  | empty
  | built
  | hw
  | done
  deriving DecidableEq, Repr

/-- A transfer direction (R19, R35): 0 memory to card, 1 card to memory. -/
inductive Dir where
  | toDevice
  | fromDevice
  deriving DecidableEq, Repr

/-- The chain registers of one builder (R35). -/
structure ChainRegs where
  /-- `DB.CHAIN_STATE` -/
  state : ChainState
  /-- `DB.CHAIN_BASE` -/
  base : Word
  /-- `DB.CHAIN_COUNT` -/
  count : Word
  /-- `DB.CHAIN_BUF` -/
  buf : Word
  /-- `DB.CHAIN_LEN` -/
  len : Word
  /-- `DB.CHAIN_DIR` -/
  dir : Dir
  deriving DecidableEq, Repr

/-- The framer `fr0`: latches only (R32). -/
structure FrUnit where
  port : Port
  rsp : Rsp
  deriving DecidableEq, Repr

/-- One builder instance (R35). -/
structure DbUnit where
  port : Port
  rsp : Rsp
  chain : ChainRegs
  /-- `DB.FAULTED` -/
  faulted : Bool
  /-- `DB.FAULT_CODE` -/
  faultCode : Byte
  deriving DecidableEq, Repr

/-! ## Memory, events, inputs -/

/-- Physical memory (R60): the bytes some agent has written, by strictly rising address. An address that is not listed
holds a byte the model does not know (log entry 3). -/
abbrev Memory := List Host.Cell

/-- The cache operation of a coherence request (R75). -/
inductive CacheOp where
  | flush
  | invalidate
  deriving DecidableEq, Repr

/-- An entry of the event history: a write event (R16) or one of the three collaborator events (R75). -/
inductive Event where
  /-- `MemWrite(addr, 4, value)` -/
  | memWrite (addr value : Word)
  /-- `Coherence(op, a, n)` -/
  | coherence (op : CacheOp) (a n : Word)
  /-- `Free(a)` -/
  | free (a : Word)
  deriving DecidableEq, Repr

/-- What comes from outside the block. The order of the list `State.inputs` is the order in which the agents of R20
act. -/
inductive Input where
  /-- a requester sends bytes of serialised requests to the port of `u` (R94) -/
  | send (u : UnitId) (bytes : List Byte)
  /-- it is the turn of instance `u`: it takes a held request into its latches, or performs the one they hold (R43) -/
  | perform (u : UnitId)
  /-- the RESET input of instance `u` (R280) -/
  | reset (u : UnitId)
  /-- another agent (a CPU, the IDMAC engine, a collaborator) writes a byte of the shared memory (R42; log entry 15) -/
  | extWrite (addr : Word) (byte : Byte)
  deriving DecidableEq, Repr

/-! ## The state -/

/-- The whole machine. -/
structure State where
  /-- the parameters of R11, which nothing writes (R41) -/
  cfg : Config
  fr0 : FrUnit
  db0 : DbUnit
  db1 : DbUnit
  /-- the third builder; it exists only where `N_DB = 3` -/
  db2 : DbUnit
  mem : Memory
  /-- the event history, oldest first (R16, R75; log entry 16) -/
  history : List Event
  /-- what the agents outside do next, the model's own field (log entry 4) -/
  inputs : List Input
  deriving DecidableEq, Repr

/-! ## How a step can stop. An operation never stops the block: R250's faults are status codes of a next state. -/

/-- What stops the machine. -/
inductive Fault where
  /-- A builder operation, a RESET or a request is addressed to `db2` where `N_DB = 2`. Raised by every builder meaning,
  by `reserved` and by the inputs `send`, `perform` and `reset`. SAFE: the spec has no such instance (R40), and no run
  goes on. -/
  | noSuchUnit (u : UnitId)
  deriving DecidableEq, Repr

/-- Why an instruction has no meaning. -/
inductive Refusal where
  /-- Raised by a rejected arm of `exec` for an instruction without a meaning. SAFE: nothing is claimed of it. No arm of
  this model raises it. -/
  | notModelled (mnemonic : String)
  deriving DecidableEq, Repr

/-! ## Reset values (R34, R35, R280) -/

/-- No request held (R280). -/
def Port.empty : Port := { latch := none, wire := [] }

/-- Every response latch at its empty value, which is its reset value too (R34). -/
def Rsp.empty : Rsp := { status := 0x00, value := 0, count := 0, bytes := [], words := [], pktlenM1 := 0 }

/-- The chain registers of state EMPTY (R35, R36). -/
def ChainRegs.empty : ChainRegs :=
  { state := .empty, base := 0, count := 0, buf := 0, len := 0, dir := .toDevice }

/-- The framer after RESET (R280). -/
def FrUnit.reset : FrUnit := { port := .empty, rsp := .empty }

/-- A builder after RESET (R280; its request latches: log entry 11). -/
def DbUnit.reset : DbUnit :=
  { port := .empty, rsp := .empty, chain := .empty, faulted := false, faultCode := 0x00 }

/-- The machine after power-on, which is RESET of every instance (R282), with no memory byte known, no event recorded and
no input pending. -/
def State.reset : State :=
  { cfg := .default, fr0 := .reset, db0 := .reset, db1 := .reset, db2 := .reset, mem := [], history := [], inputs := [] }

end Sys2Proof.Machine
end

