-- ==== Sys2Proof/Machine/Ops.lean ====
section
/-! DEFINITION. The operations every meaning is written over: memory, the unit instances, the response latches, the fault
step (R252, R253) and RESET (R280). -/

namespace Sys2Proof.Machine

open Sys2Proof

/-! ## Codes -/

/-- The code of a status (R250). -/
def statusCode : Status → Byte
  | .ok => 0x00
  | .shortLen => 0x01
  | .frameEmpty => 0x02
  | .txbufOverflow => 0x03
  | .malformed => 0x04
  | .chainLen => 0x10
  | .chainChunk => 0x11
  | .chainAlign => 0x12
  | .chainAddr => 0x13
  | .chainOverlap => 0x14
  | .chainBusy => 0x15
  | .releaseOwned => 0x16
  | .releaseNone => 0x17
  | .eventOrder => 0x18
  | .sticky => 0x1F

/-- `DB.CHAIN_STATE` as the two bits a requester reads (R35). -/
def chainStateBits : ChainState → BitVec 2
  | .empty => 0
  | .built => 1
  | .hw => 2
  | .done => 3

/-- `DB.CHAIN_DIR` as the bit a requester reads (R35). -/
def dirBit : Dir → BitVec 1
  | .toDevice => 0
  | .fromDevice => 1

/-! ## Memory (R60, R62) -/

/-- The canonical form: addresses strictly rising and inside the 32-bit address space. Every listed byte was written, and no
value is that of an unlisted address, so equal memories are equal lists. -/
abbrev Memory.wf (m : Memory) : Prop :=
  m.Pairwise (fun c d => c.1 < d.1) ∧ ∀ c ∈ m, c.1 < 2 ^ 32

/-- The byte at an address, where some agent has written one. -/
def Memory.get : Memory → Nat → Option Byte
  | [], _ => none
  | (x, y) :: m, a => if x = a then some y else Memory.get m a

/-- Writes one byte, keeping the addresses strictly rising. -/
def Memory.set : Memory → Nat → Byte → Memory
  | [], a, b => [(a, b)]
  | (x, y) :: m, a, b =>
    if a < x then (a, b) :: (x, y) :: m
    else if a = x then (a, b) :: m
    else (x, y) :: Memory.set m a b

/-- The four bytes of a little-endian word write (R62). -/
def Memory.write32 (m : Memory) (a : Nat) (v : Word) : Memory :=
  (((m.set a (v.extractLsb' 0 8)).set (a + 1) (v.extractLsb' 8 8)).set (a + 2) (v.extractLsb' 16 8)).set (a + 3)
    (v.extractLsb' 24 8)

/-- `MemWrite(a, 4, v)`: the bytes, and one write event (R16). -/
def State.memWrite (s : State) (a v : Word) : State :=
  { s with mem := s.mem.write32 a.toNat v, history := s.history ++ [.memWrite a v] }

/-- A sequence of word writes, in order. -/
def State.memWrites : State → List (Word × Word) → State
  | s, [] => s
  | s, w :: ws => (s.memWrite w.1 w.2).memWrites ws

/-- `emit E` (R17, R75). -/
def State.emit (s : State) (e : Event) : State := { s with history := s.history ++ [e] }

/-- The collaborator events of a history, without the write events. -/
def collaboratorEvents (h : List Event) : List Event :=
  h.filter fun e => match e with
    | .memWrite _ _ => false
    | .coherence _ _ _ => true
    | .free _ => true

/-! ## Unit instances (R40) -/

/-- The registers of a builder instance. -/
def State.db (s : State) : DbId → DbUnit
  | .db0 => s.db0
  | .db1 => s.db1
  | .db2 => s.db2

/-- Replaces the registers of a builder instance. -/
def State.setDb (s : State) : DbId → DbUnit → State
  | .db0, d => { s with db0 := d }
  | .db1, d => { s with db1 := d }
  | .db2, d => { s with db2 := d }

/-- The request side of an instance. -/
def State.port (s : State) : UnitId → Port
  | .fr0 => s.fr0.port
  | .db k => (s.db k).port

/-- Replaces the request side of an instance. -/
def State.setPort (s : State) : UnitId → Port → State
  | .fr0, p => { s with fr0 := { s.fr0 with port := p } }
  | .db k, p => s.setDb k { s.db k with port := p }

/-- The response latches of an instance. -/
def State.rsp (s : State) : UnitId → Rsp
  | .fr0 => s.fr0.rsp
  | .db k => (s.db k).rsp

/-- Replaces the response latches of an instance. -/
def State.setRsp (s : State) : UnitId → Rsp → State
  | .fr0, r => { s with fr0 := { s.fr0 with rsp := r } }
  | .db k, r => s.setDb k { s.db k with rsp := r }

/-! ## Faults (R252, R253): the one place where an operation's fault is taken. There is no return from one (R262): the
framer just goes on, and a builder goes on after RESET. -/

/-- The response of a faulted operation: the code, and every other latch empty (R34). -/
def Rsp.faulted (c : Status) : Rsp := { Rsp.empty with status := statusCode c }

/-- A fault that changes only the response latches: any fault of the framer (R252), and F_MALFORMED at either kind of
unit (R92). -/
def State.statusFault (s : State) (u : UnitId) (c : Status) : State := s.setRsp u (Rsp.faulted c)

/-- The fault step of a builder operation (R253): the response, the first code since RESET, and the sticky flag. -/
def State.dbFault (s : State) (k : DbId) (c : Status) : State :=
  s.setDb k
    { s.db k with
      rsp := Rsp.faulted c
      faultCode := if c ≠ .sticky ∧ (s.db k).faulted = false then statusCode c else (s.db k).faultCode
      faulted := true }

/-- RESET of one instance (R280): its latches and registers; memory and the history stay (R281). -/
def State.resetUnit (s : State) : UnitId → State
  | .fr0 => { s with fr0 := .reset }
  | .db k => s.setDb k .reset

/-! ## Completing an operation -/

/-- A framer operation completes: its response latches are the given ones and nothing else changes (R32, R34). -/
def State.respond (s : State) (r : Rsp) : State := s.setRsp .fr0 r

/-- What a builder operation does when it does not fault. -/
structure DbEffect where
  /-- the chain registers afterwards -/
  chain : ChainRegs
  /-- `RSP.COUNT` -/
  count : Word
  /-- the word writes to memory, in order -/
  writes : List (Word × Word)
  /-- the collaborator events, after the writes (R74) -/
  events : List Event

/-- The effect takes place: writes, then events, then registers and response (R74). -/
def State.dbCommit (s : State) (k : DbId) (e : DbEffect) : State :=
  let s' := e.events.foldl State.emit (s.memWrites e.writes)
  s'.setDb k { s'.db k with rsp := { Rsp.empty with count := e.count }, chain := e.chain }

/-- What every builder operation has in common: the instance must exist (log entry 10); after a fault it answers F_STICKY
and nothing else (R222, R253); then the operation itself decides, from the instance's registers, between a fault and an
effect. -/
def dbOperation (k : DbId) (op : DbUnit → Except Status DbEffect) (s : State) :
    Host.Outcome State Fault Refusal :=
  if s.cfg.hasDb k then
    if (s.db k).faulted then .next (s.dbFault k .sticky)
    else
      match op (s.db k) with
      | .error c => .next (s.dbFault k c)
      | .ok e => .next (s.dbCommit k e)
  else .fault (.noSuchUnit (.db k))

end Sys2Proof.Machine
end

