-- ==== Sys2Proof/Machine/Flags.lean ====
section
/-! DEFINITION. The descriptor flags (R105, R205). The block has no arithmetic flags (R37); its status flags are
`DB.FAULTED` and `DB.CHAIN_STATE`, in State. -/

namespace Sys2Proof.Machine

open Sys2Proof

/-- The word with one flag bit set. -/
def flagBit (b : Fin 32) : Word := BitVec.twoPow 32 b.val

/-- The flag bit where the condition holds, else no bit. -/
def flagIf (c : Bool) (b : Fin 32) : Word := if c then flagBit b else 0

/-- `cfg_i` of R205: OWN and CH always, FD on the first, LD on the last, DIC on all but the last; ERR and every other bit
0. -/
def descConfig (y : DescLayout) (i count : Nat) : Word :=
  flagBit y.own ||| flagBit y.ch ||| flagIf (i == 0) y.fd ||| flagIf (i + 1 == count) y.ld |||
    flagIf (i + 1 != count) y.dic

end Sys2Proof.Machine
end

