-- ==== Sys2Proof/Machine/Operands.lean ====
section
/-! DEFINITION. BUILD's operands: the checks of R201 and the words of each descriptor (R203 to R208). Address sums are on
natural numbers, so none wraps (R15). -/

namespace Sys2Proof.Machine

open Sys2Proof

/-- `ceil_div(a, b)` (R15). -/
def ceilDiv (a b : Nat) : Nat := (a + b - 1) / b

/-- `SIZE_MAX[k]` (R11). -/
def sizeMax (c : Config) (k : DbId) : Nat := 2 ^ c.sizeFieldBits k - 1

/-- `check_operands` of R201: the first check that fails, in its order. -/
def checkOperands (smax buf l m desc : Nat) : Option Status :=
  if l = 0 ∨ l % 4 ≠ 0 then some .chainLen
  else if m = 0 ∨ m % 4 ≠ 0 ∨ m > smax then some .chainChunk
  else if buf % 4 ≠ 0 ∨ desc % 4 ≠ 0 then some .chainAlign
  else if desc = 0 ∨ desc + descBytes * ceilDiv l m > 2 ^ 32 ∨ buf + l > 2 ^ 32 then some .chainAddr
  else if desc < buf + l ∧ buf < desc + descBytes * ceilDiv l m then some .chainOverlap
  else none

/-- `a_i` of R203. -/
def descAddr (desc i : Nat) : Nat := desc + descBytes * i

/-- `size_i` of R206. -/
def descSize (l m i count : Nat) : Nat := if i + 1 = count then l - (count - 1) * m else m

/-- `buf_i` of R207. -/
def descBuf (buf m i : Nat) : Nat := buf + i * m

/-- `next_i` of R208. -/
def descNext (desc i count : Nat) : Nat := if i + 1 = count then 0 else descAddr desc (i + 1)

/-- `write_descriptor(i, count)` of R204: DES0 to DES3. -/
def descWrites (y : DescLayout) (buf l m desc count i : Nat) : List (Word × Word) :=
  [(BitVec.ofNat 32 (descAddr desc i), descConfig y i count),
   (BitVec.ofNat 32 (descAddr desc i + 4), BitVec.ofNat 32 (descSize l m i count)),
   (BitVec.ofNat 32 (descAddr desc i + 8), BitVec.ofNat 32 (descBuf buf m i)),
   (BitVec.ofNat 32 (descAddr desc i + 12), BitVec.ofNat 32 (descNext desc i count))]

/-- The writes of the whole chain, descriptors in ascending index (R203). -/
def chainWrites (y : DescLayout) (buf l m desc : Nat) : List (Word × Word) :=
  (List.range (ceilDiv l m)).flatMap (descWrites y buf l m desc (ceilDiv l m))

end Sys2Proof.Machine
end

