-- ==== Sys2Proof/Machine/Chain.lean ====
section
/-! DEFINITION. BUILD, RELEASE, EV_ENABLED and EV_COMPLETE (R200 to R226), and the pseudo-instructions BUILD.W and BUILD.R
(R111). The sticky check stands in `dbOperation`; each operation below is what its rule says after it. -/

namespace Sys2Proof.Machine

open Sys2Proof

/-- `emit_coherence` of R209: a flush towards the device, an invalidation from it, over the whole buffer. -/
def coherenceEvent (dir : Dir) (buf l : Word) : Event :=
  match dir with
  | .toDevice => .coherence .flush buf l
  | .fromDevice => .coherence .invalidate buf l

/-- The effect of a BUILD whose checks pass (R200). -/
def buildEffect (y : DescLayout) (dir : Dir) (buf l m desc : Word) : DbEffect :=
  { chain :=
      { state := .built, base := desc, count := BitVec.ofNat 32 (ceilDiv l.toNat m.toNat), buf := buf, len := l,
        dir := dir }
    count := BitVec.ofNat 32 (ceilDiv l.toNat m.toNat)
    writes := chainWrites y buf.toNat l.toNat m.toNat desc.toNat
    events := [coherenceEvent dir buf l] }

/-- BUILD (R200, R201). -/
def buildOp (c : Config) (k : DbId) (dir : Dir) (buf l m desc : Word) (d : DbUnit) : Except Status DbEffect :=
  if d.chain.state ≠ .empty then .error .chainBusy
  else
    match checkOperands (sizeMax c k) buf.toNat l.toNat m.toNat desc.toNat with
    | some f => .error f
    | none => .ok (buildEffect c.descLayout dir buf l m desc)

/-- RELEASE (R212). -/
def releaseOp (d : DbUnit) : Except Status DbEffect :=
  match d.chain.state with
  | .empty => .error .releaseNone
  | .hw => .error .releaseOwned
  | .built => .ok { chain := .empty, count := d.chain.count, writes := [], events := [.free d.chain.base] }
  | .done => .ok { chain := .empty, count := d.chain.count, writes := [], events := [.free d.chain.base] }

/-- EV_ENABLED (R215). -/
def enabledOp (d : DbUnit) : Except Status DbEffect :=
  if d.chain.state ≠ .built then .error .eventOrder
  else .ok { chain := { d.chain with state := .hw }, count := 0, writes := [], events := [] }

/-- EV_COMPLETE (R219). -/
def completeOp (d : DbUnit) : Except Status DbEffect :=
  if d.chain.state ≠ .hw then .error .eventOrder
  else .ok { chain := { d.chain with state := .done }, count := 0, writes := [], events := [] }

/-! ## Meanings -/

/-- BUILD.TO (R200, DIR 0). -/
def execBuildTo (k : DbId) (buf l m desc : Word) (s : State) : Host.Outcome State Fault Refusal :=
  dbOperation k (buildOp s.cfg k .toDevice buf l m desc) s

/-- BUILD.FROM (R200, DIR 1). -/
def execBuildFrom (k : DbId) (buf l m desc : Word) (s : State) : Host.Outcome State Fault Refusal :=
  dbOperation k (buildOp s.cfg k .fromDevice buf l m desc) s

/-- BUILD.W expands to BUILD.TO (R111). -/
def execBuildW (k : DbId) (buf l m desc : Word) (s : State) : Host.Outcome State Fault Refusal :=
  dbOperation k (buildOp s.cfg k .toDevice buf l m desc) s

/-- BUILD.R expands to BUILD.FROM (R111). -/
def execBuildR (k : DbId) (buf l m desc : Word) (s : State) : Host.Outcome State Fault Refusal :=
  dbOperation k (buildOp s.cfg k .fromDevice buf l m desc) s

/-- RELEASE (R212). -/
def execRelease (k : DbId) (s : State) : Host.Outcome State Fault Refusal := dbOperation k releaseOp s

/-- EV_ENABLED (R215). -/
def execEvEnabled (k : DbId) (s : State) : Host.Outcome State Fault Refusal := dbOperation k enabledOp s

/-- EV_COMPLETE (R219). -/
def execEvComplete (k : DbId) (s : State) : Host.Outcome State Fault Refusal := dbOperation k completeOp s

end Sys2Proof.Machine
end

