-- ==== Sys2Proof/Machine/Ecc.lean ====
section
/-! DEFINITION. The header ECC (R120 to R122) and the operation ECC (R125). -/

namespace Sys2Proof.Machine

open Sys2Proof

/-- `D` of R120: the three header bytes as a little-endian 24-bit word. -/
def headerWord (h0 h1 h2 : Byte) : BitVec 24 :=
  h0.setWidth 24 ||| (h1.setWidth 24 <<< 8) ||| (h2.setWidth 24 <<< 16)

/-- The XOR of the bits below bit `n`. -/
def parityBelow (v : BitVec 24) : Nat → Bool
  | 0 => false
  | n + 1 => parityBelow v n ^^ v.getLsbD n

/-- `parity(v)` of R15. -/
def parity (v : BitVec 24) : Bool := parityBelow v 24

/-- `P_i << i` of R122, for the mask of parity bit `i`. -/
def parityBit (mask d : BitVec 24) (i : Nat) : Byte := if parity (d &&& mask) then BitVec.twoPow 8 i else 0

/-- The ECC of a 24-bit header word. -/
def eccWord (ms : EccMasks) (d : BitVec 24) : Byte :=
  parityBit ms.p0 d 0 ||| parityBit ms.p1 d 1 ||| parityBit ms.p2 d 2 ||| parityBit ms.p3 d 3 |||
    parityBit ms.p4 d 4 ||| parityBit ms.p5 d 5

/-- `ecc(h0, h1, h2)` of R122. -/
def ecc (ms : EccMasks) (h0 h1 h2 : Byte) : Byte := eccWord ms (headerWord h0 h1 h2)

/-- ECC (R125). -/
def execEcc (h0 h1 h2 : Byte) (s : State) : Host.Outcome State Fault Refusal :=
  let e := ecc s.cfg.eccMasks h0 h1 h2
  .next (s.respond { Rsp.empty with value := e.setWidth 16, count := 1, bytes := [e] })

end Sys2Proof.Machine
end

