-- ==== Sys2Proof/Machine/Framing.lean ====
section
/-! DEFINITION. SHORT, LONG, FRAME and FRAMEW (R160 to R178), the pseudo-instruction SENDCMD (R111), and the three output
formats (R96, R97). -/

namespace Sys2Proof.Machine

open Sys2Proof

/-! ## Packets -/

/-- A header with its ECC at offset 3 (R95). -/
def header (ms : EccMasks) (h0 h1 h2 : Byte) : List Byte := [h0, h1, h2, ecc ms h0 h1 h2]

/-- `short([d0])` of R160. -/
def short1 (ms : EccMasks) (d0 : Byte) : List Byte := header ms 0x05 d0 0x00

/-- `short([d0, d1])` of R160. -/
def short2 (ms : EccMasks) (d0 d1 : Byte) : List Byte := header ms 0x15 d0 d1

/-- `long(p)` of R165. -/
def longPacket (ms : EccMasks) (p : List Byte) : List Byte :=
  header ms 0x39 (BitVec.ofNat 8 p.length) (BitVec.ofNat 8 (p.length / 256)) ++ p ++ crcTrailer (crc16 p)

/-- `frame(p)` of R170: short for one or two bytes, else long. -/
def framePacket (ms : EccMasks) : List Byte → List Byte
  | [d0] => short1 ms d0
  | [d0, d1] => short2 ms d0 d1
  | p => longPacket ms p

/-- `RSP.VALUE` of FRAME and FRAMEW: the CRC of a long packet, untouched for a short one (R170, R176). -/
def frameValue (p : List Byte) : Half := if p.length ≥ 3 then crc16 p else 0

/-- Byte `4*w + j` of the packet at its place in word `w`, zero beyond the packet (R176). -/
def packByte (p : List Byte) (w j : Nat) : Word := (p.getD (4 * w + j) 0).setWidth 32 <<< (8 * j)

/-- `word[w]` of R176. -/
def packWord (p : List Byte) (w : Nat) : Word :=
  packByte p w 0 ||| packByte p w 1 ||| packByte p w 2 ||| packByte p w 3

/-- The transmit-buffer words of a packet (R176). -/
def packWords (p : List Byte) : List Word := (List.range (ceilDiv p.length 4)).map (packWord p)

/-! ## Responses -/

/-- The response of SHORT to a packet (R160). -/
def shortRsp (p : List Byte) : Rsp := { Rsp.empty with bytes := p, count := 4 }

/-- The response of LONG (R165). -/
def longRsp (ms : EccMasks) (data : List Byte) : Rsp :=
  { Rsp.empty with
    bytes := longPacket ms data
    count := BitVec.ofNat 32 (data.length + 6)
    value := crc16 data }

/-- The response of FRAME (R170). -/
def frameRsp (ms : EccMasks) (data : List Byte) : Rsp :=
  { Rsp.empty with
    bytes := framePacket ms data
    count := BitVec.ofNat 32 (framePacket ms data).length
    value := frameValue data }

/-- The response of FRAMEW (R176): FRAME's, with the words and the packet length less one. -/
def framewRsp (ms : EccMasks) (data : List Byte) : Rsp :=
  { frameRsp ms data with
    words := packWords (framePacket ms data)
    pktlenM1 := BitVec.ofNat 8 ((framePacket ms data).length - 1) }

/-- FRAMEW as R176 orders its checks. -/
def framewOperation (data : List Byte) (s : State) : State :=
  if data.length = 0 then s.statusFault .fr0 .frameEmpty
  else if (framePacket s.cfg.eccMasks data).length > txbufBytes then s.statusFault .fr0 .txbufOverflow
  else s.respond (framewRsp s.cfg.eccMasks data)

/-! ## Meanings -/

/-- SHORT (R160). -/
def execShort (data : List Byte) (s : State) : Host.Outcome State Fault Refusal :=
  match data with
  | [d0] => .next (s.respond (shortRsp (short1 s.cfg.eccMasks d0)))
  | [d0, d1] => .next (s.respond (shortRsp (short2 s.cfg.eccMasks d0 d1)))
  | _ => .next (s.statusFault .fr0 .shortLen)

/-- LONG (R165). -/
def execLong (data : List Byte) (s : State) : Host.Outcome State Fault Refusal :=
  .next (s.respond (longRsp s.cfg.eccMasks data))

/-- FRAME (R170). -/
def execFrame (data : List Byte) (s : State) : Host.Outcome State Fault Refusal :=
  if data.length = 0 then .next (s.statusFault .fr0 .frameEmpty)
  else .next (s.respond (frameRsp s.cfg.eccMasks data))

/-- FRAMEW (R176). -/
def execFramew (data : List Byte) (s : State) : Host.Outcome State Fault Refusal :=
  .next (framewOperation data s)

/-- SENDCMD expands to FRAMEW (R111). -/
def execSendcmd (data : List Byte) (s : State) : Host.Outcome State Fault Refusal :=
  .next (framewOperation data s)

/-- PKT_05: the framer puts out this packet, with the response of the operation that produces it, SHORT of one byte (R96,
R160; log entry 9). No request decodes to it. -/
def execPkt05 (d0 : Byte) (s : State) : Host.Outcome State Fault Refusal :=
  .next (s.respond (shortRsp (short1 s.cfg.eccMasks d0)))

/-- PKT_15: the same for a packet of two data bytes (R96, R160; log entry 9). -/
def execPkt15 (d0 d1 : Byte) (s : State) : Host.Outcome State Fault Refusal :=
  .next (s.respond (shortRsp (short2 s.cfg.eccMasks d0 d1)))

/-- PKT_39: the same for a long packet (R97, R165; log entry 9). -/
def execPkt39 (payload : List Byte) (s : State) : Host.Outcome State Fault Refusal :=
  .next (s.respond (longRsp s.cfg.eccMasks payload))

end Sys2Proof.Machine
end

