-- ==== Sys2Proof/Machine/Ports.lean ====
section
/-! DEFINITION. Requests at the ports (R33, R43, R94), malformed requests (R92), the inputs from outside, and the
placing of a table word (the host's question). -/

namespace Sys2Proof.Machine

open Sys2Proof

/-- A command word that is no row of R91 (R92): F_MALFORMED in `RSP.STATUS`, no other state; not sticky. The other response
latches take their empty values, as after any fault (R34; log entry 8). -/
def execReserved (u : UnitId) (_cw : Word) (_data : List Byte) (s : State) : Host.Outcome State Fault Refusal :=
  if s.cfg.hasUnit u then .next (s.statusFault u .malformed) else .fault (.noSuchUnit u)

/-- The operation takes the request out of the latches: each request is consumed once (R33). -/
def State.consume (s : State) (u : UnitId) : State := s.setPort u { s.port u with latch := none }

/-- Bytes of serialised requests arrive at the port and wait there in order; none is merged or lost (R43). DESIGN CHOICE
(log entry 21): bytes that arrive after a request that was cut short are appended to it like any others, so they can
complete it, and it is then performed. -/
def State.receive (s : State) (u : UnitId) (bytes : List Byte) : State :=
  s.setPort u { s.port u with wire := (s.port u).wire ++ bytes }

/-- The first request waiting at an idle instance reaches its latches, if all its bytes are there; a request cut short
stays held (R43, R94), until later bytes complete it (log entry 21). -/
def State.latchNext (s : State) (u : UnitId) : State :=
  match parseRequest u (s.port u).wire with
  | .ok (r, rest) => s.setPort u { latch := some r, wire := rest }
  | .error _ => s

/-- Whether the instance exists and has a request in its latches or a whole one waiting. -/
def State.hasWork (s : State) (u : UnitId) : Bool :=
  s.cfg.hasUnit u &&
    ((s.port u).latch.isSome ||
      match parseRequest u (s.port u).wire with
      | .ok _ => true
      | .error _ => false)

/-- The instances, in the order in which they are served when no input says whose turn it is (log entry 4). -/
def serviceOrder : List UnitId := [.fr0, .db .db0, .db .db1, .db .db2]

/-- The instance served when no input is pending: a request held at an idle port is eventually performed (R298). -/
def State.nextServed (s : State) : Option UnitId := serviceOrder.find? fun u => s.hasWork u

/-- Another agent writes a byte of memory (R42); the block's history does not record it. -/
def State.extWrite (s : State) (a : Word) (b : Byte) : State := { s with mem := s.mem.set a.toNat b }

/-- Places a request in the latches of an instance and makes it that instance's turn. -/
def State.place (s : State) (u : UnitId) (r : Request) : State :=
  { s.setPort u { s.port u with latch := some r } with inputs := .perform u :: s.inputs }

/-- Places the request of a word of the opcode table in the latches of its default instance (R110). -/
def State.placeTableWord (s : State) (nbits w : Nat) : State :=
  match parseRequest (defaultUnit (tableCw nbits w)) (tableBytes nbits w) with
  | .ok (r, _) => s.place (defaultUnit (tableCw nbits w)) r
  | .error _ => s

end Sys2Proof.Machine
end

