-- ==== Sys2Proof/Machine/Dispatch.lean ====
section
/-! DEFINITION. One arm for each instruction. -/

namespace Sys2Proof.Machine

open Sys2Proof

def exec (i : Instr) (s : State) : Host.Outcome State Fault Refusal :=
  match i with
  | .ecc h0 h1 h2 => Sys2Proof.Machine.execEcc h0 h1 h2 s
  | .crc data => Sys2Proof.Machine.execCrc data s
  | .short data => Sys2Proof.Machine.execShort data s
  | .long data => Sys2Proof.Machine.execLong data s
  | .frame data => Sys2Proof.Machine.execFrame data s
  | .framew data => Sys2Proof.Machine.execFramew data s
  | .buildTo k buf l m desc => Sys2Proof.Machine.execBuildTo k buf l m desc s
  | .buildFrom k buf l m desc => Sys2Proof.Machine.execBuildFrom k buf l m desc s
  | .release k => Sys2Proof.Machine.execRelease k s
  | .evEnabled k => Sys2Proof.Machine.execEvEnabled k s
  | .evComplete k => Sys2Proof.Machine.execEvComplete k s
  | .sendcmd data => Sys2Proof.Machine.execSendcmd data s
  | .buildW k buf l m desc => Sys2Proof.Machine.execBuildW k buf l m desc s
  | .buildR k buf l m desc => Sys2Proof.Machine.execBuildR k buf l m desc s
  | .pkt05 d0 => Sys2Proof.Machine.execPkt05 d0 s
  | .pkt15 d0 d1 => Sys2Proof.Machine.execPkt15 d0 d1 s
  | .pkt39 payload => Sys2Proof.Machine.execPkt39 payload s
  | .reserved u cw data => Sys2Proof.Machine.execReserved u cw data s

end Sys2Proof.Machine
end

