-- ==== Sys2Proof/Machine/Step.lean ====
section
/-! DEFINITION. One step: the next input from outside, or, with none pending, the next request that waits at a port. Every
state change of the block is a response to a request or to RESET (R20). -/

namespace Sys2Proof.Machine

open Sys2Proof

/-- The turn of an instance: the request in its latches is consumed and performed, one atomic operation (R18, R33); with
the latches empty, the next waiting request reaches them (R43). -/
def serve (u : UnitId) (s : State) : Host.Outcome State Fault Refusal :=
  match (s.port u).latch with
  | some r => exec (decode u r) (s.consume u)
  | none => .next (s.latchNext u)

/-- An input takes place. An input to an instance that does not exist stops the run. -/
def takeInput (i : Input) (s : State) : Host.Outcome State Fault Refusal :=
  match i with
  | .send u bytes => if s.cfg.hasUnit u then .next (s.receive u bytes) else .fault (.noSuchUnit u)
  | .perform u => if s.cfg.hasUnit u then serve u s else .fault (.noSuchUnit u)
  | .reset u => if s.cfg.hasUnit u then .next (s.resetUnit u) else .fault (.noSuchUnit u)
  | .extWrite a b => .next (s.extWrite a b)

/-- One step of the machine. With no input pending and no request waiting, the block is idle and stays as it is. -/
def step (s : State) : Host.Outcome State Fault Refusal :=
  match s.inputs with
  | i :: rest => takeInput i { s with inputs := rest }
  | [] =>
    match s.nextServed with
    | some u => serve u s
    | none => .next s

/-- The state with a word of the opcode table in the request latches of its default instance, which is served next. -/
def State.withFetchWord (s : State) (nbits w : Nat) : State := s.placeTableWord nbits w

end Sys2Proof.Machine
end

