-- ==== Sys2Proof/WellFormed.lean ====
section
/-! DEFINITION. What a term of `Instr` must satisfy to stand for a request or a packet the spec gives. -/

namespace Sys2Proof

/-- `MAX_LEN_FIELD` (R11): the largest byte count the 16-bit LEN field and the 2-byte length of a long header hold. -/
def maxLenField : Nat := 65535

/-- The checks: a payload fits the LEN field (R33, R90); a reserved word is malformed at its instance and carries the
bytes its LEN counts (R92, R93). -/
def Instr.wf : Instr → Bool
  | .ecc _ _ _ => true
  | .crc data => data.length ≤ maxLenField
  | .short data => data.length ≤ maxLenField
  | .long data => data.length ≤ maxLenField
  | .frame data => data.length ≤ maxLenField
  | .framew data => data.length ≤ maxLenField
  | .buildTo _ _ _ _ _ => true
  | .buildFrom _ _ _ _ _ => true
  | .release _ => true
  | .evEnabled _ => true
  | .evComplete _ => true
  | .sendcmd data => data.length ≤ maxLenField
  | .buildW _ _ _ _ _ => true
  | .buildR _ _ _ _ _ => true
  | .pkt05 _ => true
  | .pkt15 _ _ => true
  | .pkt39 payload => payload.length ≤ maxLenField
  | .reserved u cw data => cwMalformed u cw && data.length == cwLen cw

end Sys2Proof
end

