-- ==== Sys2Proof/Safety.lean ====
section
/-! DEFINITION. What a run may be relied on for: the invariant every step keeps, and the obligations that the spec leaves
to the requester and that the block does not check. -/

namespace Sys2Proof.Machine

open Sys2Proof

/-! ## Whose operation an instruction is -/

/-- The builder instance an instruction is an operation of (R91): BUILD and its pseudo-instructions, RELEASE, EV_ENABLED,
EV_COMPLETE. -/
def builderOf : Instr → Option DbId
  | .buildTo k _ _ _ _ => some k
  | .buildFrom k _ _ _ _ => some k
  | .buildW k _ _ _ _ => some k
  | .buildR k _ _ _ _ => some k
  | .release k => some k
  | .evEnabled k => some k
  | .evComplete k => some k
  | .ecc _ _ _ => none
  | .crc _ => none
  | .short _ => none
  | .long _ => none
  | .frame _ => none
  | .framew _ => none
  | .sendcmd _ => none
  | .pkt05 _ => none
  | .pkt15 _ _ => none
  | .pkt39 _ => none
  | .reserved _ _ _ => none

/-- Whether an instruction is answered by the framer: its operations, SENDCMD, the output formats, and a malformed word at
fr0. -/
def answeredByFramer : Instr → Bool
  | .ecc _ _ _ => true
  | .crc _ => true
  | .short _ => true
  | .long _ => true
  | .frame _ => true
  | .framew _ => true
  | .sendcmd _ => true
  | .pkt05 _ => true
  | .pkt15 _ _ => true
  | .pkt39 _ => true
  | .reserved u _ _ => u == .fr0
  | .buildTo _ _ _ _ _ => false
  | .buildFrom _ _ _ _ _ => false
  | .buildW _ _ _ _ _ => false
  | .buildR _ _ _ _ _ => false
  | .release _ => false
  | .evEnabled _ => false
  | .evComplete _ => false

/-- The forms of BUILD in one direction: the operation and its pseudo-instruction (R111). -/
def buildForms (dir : Dir) (k : DbId) (buf l m desc : Word) : List Instr :=
  match dir with
  | .toDevice => [.buildTo k buf l m desc, .buildW k buf l m desc]
  | .fromDevice => [.buildFrom k buf l m desc, .buildR k buf l m desc]

/-! ## The invariant -/

/-- The codes of R250. -/
def statusCodes : List Byte :=
  [0x00, 0x01, 0x02, 0x03, 0x04, 0x10, 0x11, 0x12, 0x13, 0x14, 0x15, 0x16, 0x17, 0x18, 0x1F]

/-- The codes `DB.FAULT_CODE` can keep: a builder's faults, without F_STICKY (R253). -/
def dbFaultCodes : List Byte := [0x10, 0x11, 0x12, 0x13, 0x14, 0x15, 0x16, 0x17, 0x18]

/-- The response latches hold a code of R250 and sequences no longer than R34 allows, and after a fault nothing but the
code. -/
abbrev Rsp.wf (r : Rsp) : Prop :=
  r.status ∈ statusCodes ∧ r.bytes.length ≤ 65541 ∧ r.words.length ≤ 64 ∧
    (r.status ≠ 0x00 → r = { Rsp.empty with status := r.status })

/-- A held request has exactly the data bytes its LEN counts, and none for BUILD (R33, R93). -/
abbrev Port.wf (p : Port) : Prop :=
  (p.latch.all fun r => r.data.length == cwLen r.cw) = true

/-- The registers describe a chain BUILD can have made: R36, and what R201 checks of it. The chunk size M that BUILD took is
in no register; one that passes R201 under `SIZE_MAX` must give the count (R200). -/
abbrev ChainRegs.describesChain (smax : Nat) (c : ChainRegs) : Prop :=
  c.base ≠ 0 ∧ 1 ≤ c.count.toNat ∧ c.len ≠ 0 ∧
    c.base.toNat % 4 = 0 ∧ c.buf.toNat % 4 = 0 ∧ c.len.toNat % 4 = 0 ∧
    c.base.toNat + 16 * c.count.toNat ≤ 2 ^ 32 ∧ c.buf.toNat + c.len.toNat ≤ 2 ^ 32 ∧
    (c.base.toNat + 16 * c.count.toNat ≤ c.buf.toNat ∨ c.buf.toNat + c.len.toNat ≤ c.base.toNat) ∧
    ∃ m : Nat, m ≠ 0 ∧ m % 4 = 0 ∧ m ≤ smax ∧ c.count.toNat = ceilDiv c.len.toNat m

/-- R36: all zero in EMPTY, a chain in the other states. -/
abbrev ChainRegs.wf (smax : Nat) (c : ChainRegs) : Prop :=
  (c.state = .empty → c = ChainRegs.empty) ∧ (c.state ≠ .empty → c.describesChain smax)

/-- `DB.FAULT_CODE` is 0 until the first fault and a builder's fault code from then on (R35, R253). -/
abbrev DbUnit.faultWf (d : DbUnit) : Prop :=
  if d.faulted = true then d.faultCode ∈ dbFaultCodes else d.faultCode = 0x00

/-- The invariant of one builder, under its `SIZE_MAX`. -/
abbrev DbUnit.wf (smax : Nat) (d : DbUnit) : Prop := d.port.wf ∧ d.rsp.wf ∧ d.chain.wf smax ∧ d.faultWf

/-- The invariant of the framer. -/
abbrev FrUnit.wf (f : FrUnit) : Prop := f.port.wf ∧ f.rsp.wf

/-- The invariant of the machine. -/
abbrev State.Inv (s : State) : Prop :=
  s.cfg.wf ∧ s.fr0.wf ∧ s.db0.wf (sizeMax s.cfg .db0) ∧ s.db1.wf (sizeMax s.cfg .db1) ∧
    s.db2.wf (sizeMax s.cfg .db2) ∧ s.mem.wf

/-! ## What the requester owes (R72, R226, R285, R290). No operation checks it; a run in which it fails goes on as R204
says (U20; log entry 14). -/

/-- The address is one of the pool's, which is the union of its ranges. -/
def poolHas (c : Config) (x : Nat) : Prop := ∃ p ∈ c.dmaPool, p.base ≤ x ∧ x < p.base + p.size

/-- Every address of `[a, a + n)` is one of the pool's (R72: the pool is a set of addresses). -/
def inPool (c : Config) (a n : Nat) : Prop := ∀ x, a ≤ x → x < a + n → poolHas c x

/-- The obligation of a BUILD: its array and its buffer lie in the DMA pool (R72). -/
def buildInPool (c : Config) (buf l m desc : Word) : Prop :=
  inPool c desc.toNat (descBytes * ceilDiv l.toNat m.toNat) ∧ inPool c buf.toNat l.toNat

/-- The chain that the IDMAC engine may fetch: only while the hardware owns it (R217, R290). -/
def engineMayFetch (s : State) (k : DbId) (a : Nat) : Prop :=
  (s.db k).chain.state = .hw ∧ (s.db k).chain.base.toNat ≤ a ∧
    a < (s.db k).chain.base.toNat + descBytes * (s.db k).chain.count.toNat

/-- The obligation towards an input (R42, R289, R291): while a chain exists, no other agent writes its array. The IDMAC
engine's own write-back into DES0 is what remains: from EV_ENABLED on (U5), so in HW and, since R220 and R292 leave open
whether OWN is cleared when EV_COMPLETE arrives, in DONE too. An input does not name its agent, so every write into DES0
there counts as the engine's (DESIGN CHOICE, log entry 23). R293 lets a requester RESET a builder in HW once it has stopped or
reset the engine; no field of State says that the engine is stopped, so here every RESET in HW is a breach (DESIGN CHOICE,
log entry 22). The step performs such a RESET all the same (R280). -/
def inputRespectsChains (s : State) : Input → Prop
  | .send _ _ => True
  | .perform _ => True
  | .reset u => ∀ k, u = .db k → (s.db k).chain.state ≠ .hw
  | .extWrite a _ =>
    ∀ k, (s.db k).chain.state ≠ .empty →
      a.toNat < (s.db k).chain.base.toNat ∨
        (s.db k).chain.base.toNat + descBytes * (s.db k).chain.count.toNat ≤ a.toNat ∨
        (((s.db k).chain.state = .hw ∨ (s.db k).chain.state = .done) ∧
          (a.toNat - (s.db k).chain.base.toNat) % descBytes < 4)

end Sys2Proof.Machine
end

