-- ==== Sys2Proof/Certificates/Slice0/Obligations.lean ====
section
/-! DEFINITION. The statements for the provers. Each docstring names the rule of spec/ it formalises. A statement about
every state is one about every configuration: the parameters of R11 travel in the state (log entry 1). -/

namespace Sys2Proof.Claims

open Sys2Proof Sys2Proof.Machine

/-- Memory holds the word `v`, little-endian, at the address `a` (R62). -/
def ReadsWord (m : Memory) (a : Nat) (v : Word) : Prop :=
  ∀ j, j < 4 → m.get (a + j) = some (v.extractLsb' (8 * j) 8)

/-- `ceil(L / M)`. -/
def chunks (l m : Word) : Nat := (l.toNat + m.toNat - 1) / m.toNat

/-- The operands pass every check of R201 at instance `k`. -/
def BuildAdmitted (c : Config) (k : DbId) (buf l m desc : Word) : Prop :=
  (l.toNat ≠ 0 ∧ l.toNat % 4 = 0) ∧
    (m.toNat ≠ 0 ∧ m.toNat % 4 = 0 ∧ m.toNat ≤ 2 ^ c.sizeFieldBits k - 1) ∧
    (buf.toNat % 4 = 0 ∧ desc.toNat % 4 = 0) ∧
    (desc.toNat ≠ 0 ∧ desc.toNat + 16 * chunks l m ≤ 2 ^ 32 ∧ buf.toNat + l.toNat ≤ 2 ^ 32) ∧
    (buf.toNat + l.toNat ≤ desc.toNat ∨ desc.toNat + 16 * chunks l m ≤ buf.toNat)

/-- The response of a fault: the code, every other latch empty (R34). -/
def statusOnly (code : Byte) : Rsp :=
  { status := code, value := 0, count := 0, bytes := [], words := [], pktlenM1 := 0 }

/-- The state after instance `k`, not faulted before, took a fault with this code (R253). -/
def faultedState (s : State) (k : DbId) (code : Byte) : State :=
  s.setDb k { s.db k with rsp := statusOnly code, faulted := true, faultCode := code }

/-- The six cases of R92, on the number the command word is. -/
def MalformedAt (u : UnitId) (cw : Word) : Prop :=
  let opsel := cw.toNat % 256
  let dir := cw.toNat / 256 % 2
  let rsv := cw.toNat / 512 % 128
  let len := cw.toNat / 65536
  opsel ∉ [0x01, 0x02, 0x03, 0x04, 0x05, 0x06, 0x10, 0x11, 0x12, 0x13] ∨
    (u = .fr0 ∧ opsel ∈ [0x10, 0x11, 0x12, 0x13]) ∨
    (u ≠ .fr0 ∧ opsel ∈ [0x01, 0x02, 0x03, 0x04, 0x05, 0x06]) ∨
    rsv ≠ 0 ∨
    (dir = 1 ∧ opsel ≠ 0x10) ∨
    (opsel = 0x01 ∧ len ≠ 3) ∨
    (opsel ∈ [0x10, 0x11, 0x12, 0x13] ∧ len ≠ 0)

/-- The bytes of `frame(p)` (R170), written out from R160 and R165 (R96, R97): tag, data and ECC for one or two bytes; else
tag, length, ECC, payload and the payload's CRC, each pair low byte first. -/
def framedBytes (ms : EccMasks) : List Byte → List Byte
  | [d0] => [0x05, d0, 0x00, ecc ms 0x05 d0 0x00]
  | [d0, d1] => [0x15, d0, d1, ecc ms 0x15 d0 d1]
  | p =>
    let lo := BitVec.ofNat 8 (p.length % 256)
    let hi := BitVec.ofNat 8 (p.length / 256 % 256)
    [0x39, lo, hi, ecc ms 0x39 lo hi] ++ p ++ [(crc16 p).extractLsb' 0 8, (crc16 p).extractLsb' 8 8]

/-- The output format of the packet that FRAME makes of a payload (R96, R97, R170). -/
def formatOf : List Byte → Instr
  | [d0] => .pkt05 d0
  | [d0, d1] => .pkt15 d0 d1
  | p => .pkt39 p

/-- The bytes of a sequence of words, each little-endian. -/
def unpack (ws : List Word) : List Byte := ws.flatMap leBytes

/-- The columns of R222. -/
inductive ChainOp where
  | build
  | release
  | enabled
  | complete

/-- The instructions of a column, BUILD with operands that pass the checks. -/
def ChainOp.Admits (c : Config) (k : DbId) : ChainOp → Instr → Prop
  | .build, i => ∃ dir buf l m desc, BuildAdmitted c k buf l m desc ∧ i ∈ buildForms dir k buf l m desc
  | .release, i => i = .release k
  | .enabled, i => i = .evEnabled k
  | .complete, i => i = .evComplete k

/-- The cells of R222: the next state, or the code of the fault raised. -/
def cell : ChainState → ChainOp → ChainState ⊕ Byte
  | .empty, .build => .inl .built
  | .empty, .release => .inr 0x17
  | .empty, .enabled => .inr 0x18
  | .empty, .complete => .inr 0x18
  | .built, .build => .inr 0x15
  | .built, .release => .inl .empty
  | .built, .enabled => .inl .hw
  | .built, .complete => .inr 0x18
  | .hw, .build => .inr 0x15
  | .hw, .release => .inr 0x16
  | .hw, .enabled => .inr 0x18
  | .hw, .complete => .inl .done
  | .done, .build => .inr 0x15
  | .done, .release => .inl .empty
  | .done, .enabled => .inr 0x18
  | .done, .complete => .inr 0x18

end Sys2Proof.Claims

open Sys2Proof Sys2Proof.Machine Sys2Proof.Claims

/-! ## Encodings -/

/-- R90: the command word is OPSEL in bits 7:0, DIR in bit 8, RSV in bits 15:9 and LEN in bits 31:16. -/
def Obligations.CommandWordIsItsFourFields : Prop :=
  ∀ cw : Word,
    (cwOpsel cw).toNat = cw.toNat % 256 ∧ (cwDir cw).toNat = cw.toNat / 256 % 2 ∧
      (cwRsv cw).toNat = cw.toNat / 512 % 128 ∧ cwLen cw = cw.toNat / 65536 ∧
      cw.toNat = (cwOpsel cw).toNat + 256 * (cwDir cw).toNat + 512 * (cwRsv cw).toNat + 65536 * cwLen cw

/-- R92: a held request is `reserved` exactly in the six cases; it then answers F_MALFORMED and changes nothing but the
response latches, in every state of the instance. That the other response latches become empty is read from R34 and the
vectors (DEDUCED, log entry 8). A word that is none of R92's is no well-formed term and answers alike (log entry 18). -/
def Obligations.MalformedWordsAnswerMalformedOnly : Prop :=
  (∀ (u : UnitId) (r : Request), r.data.length = cwLen r.cw →
      (decode u r = .reserved u r.cw r.data ↔ MalformedAt u r.cw)) ∧
    (∀ (u : UnitId) (cw : Word) (data : List Byte) (s : State), s.cfg.hasUnit u = true →
      exec (.reserved u cw data) s = .next (s.setRsp u (statusOnly 0x04)))

/-- R112: the command words of the examples, and the two words that are malformed everywhere. -/
def Obligations.CommandWordExamples : Prop :=
  encode (.frame [0x11]) = some (.fr0, leBytes 0x00010005 ++ [0x11]) ∧
    encode (.framew [0x2A, 0x00, 0x00, 0xEF]) = some (.fr0, leBytes 0x00040006 ++ [0x2A, 0x00, 0x00, 0xEF]) ∧
    encode (.ecc 0x05 0x11 0x00) = some (.fr0, leBytes 0x00030001 ++ [0x05, 0x11, 0x00]) ∧
    (∀ k buf l m desc, encode (.buildFrom k buf l m desc) =
      some (.db k, leBytes 0x00000110 ++ (leBytes buf ++ leBytes l ++ leBytes m ++ leBytes desc))) ∧
    (∀ k, encode (.release k) = some (.db k, leBytes 0x00000011)) ∧
    (∀ u, cwMalformed u 0x00000000 = true) ∧ (∀ u, cwMalformed u 0x00000210 = true)

/-- R91: the words of the opcode table decode to the operations they stand for. -/
def Obligations.OpcodeTableWordsDecode : Prop :=
  decodeTableWord 32 0x00030001 = some (.ecc 0 0 0) ∧
    decodeTableWord 32 0x00020002 = some (.crc [0, 0]) ∧
    decodeTableWord 32 0x00010003 = some (.short [0]) ∧
    decodeTableWord 32 0x00000004 = some (.long []) ∧
    decodeTableWord 32 0x00010005 = some (.frame [0]) ∧
    decodeTableWord 32 0x00010006 = some (.framew [0]) ∧
    decodeTableWord 32 0x00000010 = some (.buildTo .db0 0 0 0 0) ∧
    decodeTableWord 32 0x00000110 = some (.buildFrom .db0 0 0 0 0) ∧
    decodeTableWord 32 0x00000011 = some (.release .db0) ∧
    decodeTableWord 32 0x00000012 = some (.evEnabled .db0) ∧
    decodeTableWord 32 0x00000013 = some (.evComplete .db0) ∧
    decodeTableWord 32 0x00000210 = some (.reserved (.db .db0) 0x00000210 [])

/-- R91, R93, R94, R111: the serialised request of a well-formed instruction, whatever follows it, is read back as the
operation it expands to, every operand at every value. The output formats alone have no request. For the form `reserved`
(R92), that LEN bytes follow the word is the model's choice (DEDUCED, log entry 5). -/
def Obligations.EncodedRequestDecodesToItsOperation : Prop :=
  ∀ i : Instr, i.wf = true →
    (encode i = none ↔ i.isOutputFormat = true) ∧
      ∀ u bs, encode i = some (u, bs) → ∀ rest, decodeBytes u (bs ++ rest) = .ok (i.expand, rest)

/-- R91, R92: each byte sequence that holds a request has one reading: what it decodes to is well-formed and its encoding
is the bytes read. For a malformed word, that the bytes read are the word and LEN bytes is the model's choice (DEDUCED,
log entry 5). -/
def Obligations.DecodedRequestIsItsEncoding : Prop :=
  ∀ (u : UnitId) (bs rest : List Byte) (i : Instr), decodeBytes u bs = .ok (i, rest) →
    i.wf = true ∧ ∃ front, bs = front ++ rest ∧ encode i = some (u, front)

/-- R92, R111: no request is read as a pseudo-instruction (it is read as the operation) or as an output format (which is no
command). That the output formats stand among the instructions is the model's choice (log entry 9). -/
def Obligations.RequestsDecodeToOperationsOnly : Prop :=
  ∀ (u : UnitId) (r : Request), (decode u r).expand = decode u r ∧ (decode u r).isOutputFormat = false ∧
    (∀ data, decode u r ≠ .sendcmd data) ∧ (∀ k buf l m desc, decode u r ≠ .buildW k buf l m desc) ∧
    (∀ k buf l m desc, decode u r ≠ .buildR k buf l m desc)

/-- R100: the packet reader finds the length from the tag and the length bytes, reads any other tag as no packet of this
block, and reads back every payload that FRAME frames and every long packet, those of 0 to 2 payload bytes that LONG and
PKT_39 put out too; no operation puts out a packet with another tag. That the reader compares neither ECC nor CRC is DEDUCED
(log entry 19), and that PKT_39, taken as an instruction, answers as LONG is the model's choice (log entry 9). -/
def Obligations.PacketReaderInvertsFraming : Prop :=
  (∀ (h1 h2 : Byte) (rest : List Byte), packetLength (0x05 :: h1 :: h2 :: rest) = some 4 ∧
      packetLength (0x15 :: h1 :: h2 :: rest) = some 4 ∧
      packetLength (0x39 :: h1 :: h2 :: rest) = some (6 + (h1.toNat + 256 * h2.toNat))) ∧
    (∀ (tag : Byte) (rest : List Byte), tag ∉ [0x05, 0x15, 0x39] → decodePacket (tag :: rest) = none) ∧
    (∀ (i : Instr) (s t : State),
      (∃ data, i = .short data ∨ i = .long data ∨ i = .frame data ∨ i = .framew data ∨ i = .sendcmd data) →
      exec i s = .next t → t.fr0.rsp.status = 0x00 → t.fr0.rsp.bytes.getD 0 0 ∈ [0x05, 0x15, 0x39]) ∧
    (∀ (ms : EccMasks) (p rest : List Byte), p ≠ [] → p.length ≤ 65535 →
      decodePacket (framePacket ms p ++ rest) = some (formatOf p, rest)) ∧
    (∀ (ms : EccMasks) (p rest : List Byte), p.length ≤ 65535 →
      decodePacket (longPacket ms p ++ rest) = some (.pkt39 p, rest)) ∧
    (∀ (p rest : List Byte) (i : Instr) (s : State), i = .long p ∨ i = .pkt39 p → p.length ≤ 65535 →
      ∃ t, exec i s = .next t ∧ decodePacket (t.fr0.rsp.bytes ++ rest) = some (.pkt39 p, rest))

/-! ## Steps, ports, reset -/

/-- R18, R33: when it is the turn of an instance whose latches hold a request that decodes to `i`, the step is exec of `i`
in the state with that request consumed; so too when no input is pending and the instance is the first with work. Whose
turn it is, by an input or as the first with work, is the model's choice (log entry 4). -/
def Obligations.StepPerformsTheLatchedRequest : Prop :=
  ∀ (s : State) (u : UnitId) (r : Request) (i : Instr), (s.port u).latch = some r → decode u r = i →
    s.cfg.hasUnit u = true →
    (∀ rest, s.inputs = .perform u :: rest →
      step s = exec i (({ s with inputs := rest } : State).setPort u { latch := none, wire := (s.port u).wire })) ∧
    (s.inputs = [] → s.nextServed = some u →
      step s = exec i (s.setPort u { latch := none, wire := (s.port u).wire }))

/-- R43: requests that wait at an idle instance reach its latches whole, one at a time, in the order they were sent, and
none is lost or merged with the next. The model's choices: a turn with empty latches only fills them (log entries 4 and
17), and for the form `reserved` the request is the word and LEN bytes (DEDUCED, log entry 5). -/
def Obligations.WaitingRequestsReachTheLatchesInOrder : Prop :=
  ∀ (s : State) (u : UnitId) (i : Instr) (front later : List Byte) (rest : List Input),
    i.wf = true → encode i = some (u, front) → s.cfg.hasUnit u = true →
    s.port u = { latch := none, wire := front ++ later } → s.inputs = .perform u :: rest →
    ∃ r, decode u r = i.expand ∧
      step s = .next (({ s with inputs := rest } : State).setPort u { latch := some r, wire := later })

/-- R43: bytes a requester sends are appended to those that wait, and nothing else changes. That they are appended to a
request that was cut short too, and can complete it, is the model's choice (log entry 21). What requesters send is an input
(log entry 4). -/
def Obligations.SentBytesWaitAtThePort : Prop :=
  ∀ (s : State) (u : UnitId) (bytes : List Byte) (rest : List Input), s.cfg.hasUnit u = true →
    s.inputs = .send u bytes :: rest →
    step s = .next (({ s with inputs := rest } : State).setPort u
      { latch := (s.port u).latch, wire := (s.port u).wire ++ bytes })

/-- R94: a request cut short is never performed: its turn changes nothing. The model's choices: that a turn is an input (log
entry 4), when a malformed word, the form `reserved`, counts as cut short (DEDUCED, log entry 5), and that bytes sent later
can complete it (log entry 21). -/
def Obligations.CutShortRequestStaysHeld : Prop :=
  ∀ (s : State) (u : UnitId) (i : Instr) (bytes : List Byte) (n : Nat) (rest : List Input),
    i.wf = true → encode i = some (u, bytes) → n < bytes.length → s.cfg.hasUnit u = true →
    s.port u = { latch := none, wire := bytes.take n } → s.inputs = .perform u :: rest →
    step s = .next { s with inputs := rest }

/-- R298's fairness for the request that is next: with no input pending, a request waiting at the instance that is served
is performed in two steps. The number of steps (log entry 17), the instance served (log entry 4) and, for the form
`reserved`, where the request ends (DEDUCED, log entry 5) are the model's choices. -/
def Obligations.WaitingRequestIsPerformedInTwoSteps : Prop :=
  ∀ (s : State) (u : UnitId) (i : Instr) (front later : List Byte),
    i.wf = true → encode i = some (u, front) → s.inputs = [] → s.nextServed = some u →
    s.port u = { latch := none, wire := front ++ later } →
    ∃ s', step s = .next s' ∧ step s' = exec i.expand (s.setPort u { latch := none, wire := later })

/-- R20: every state change is a response to a request, to RESET or to another agent: with no input pending and no whole
request at an existing instance, a step changes nothing. For a malformed word, where the request ends and so whether a whole
one waits is DEDUCED (log entry 5). That there is a step with nothing to do is the model's choice (log entry 4). -/
def Obligations.IdleBlockStaysAsItIs : Prop :=
  ∀ s : State, s.inputs = [] →
    (∀ u, s.cfg.hasUnit u = true → (s.port u).latch = none ∧ ∃ e, parseRequest u (s.port u).wire = .error e) →
    step s = .next s

/-- R280, R281: RESET sets every register and latch of the instance to its reset value and discards held requests; memory
and the other instances stay. That a builder's request latches become empty is DEDUCED (log entry 11), and that the event
history stays is the model's choice (log entry 16). RESET comes as an input (log entry 4). -/
def Obligations.ResetInputRestoresOneInstance : Prop :=
  (∀ (s : State) (rest : List Input), s.inputs = .reset .fr0 :: rest →
    step s = .next { s with
      inputs := rest
      fr0 := { port := { latch := none, wire := [] }, rsp := statusOnly 0x00 } }) ∧
  (∀ (s : State) (k : DbId) (rest : List Input), s.cfg.hasDb k = true → s.inputs = .reset (.db k) :: rest →
    step s = .next (({ s with inputs := rest } : State).setDb k
      { port := { latch := none, wire := [] }
        rsp := statusOnly 0x00
        chain := { state := .empty, base := 0, count := 0, buf := 0, len := 0, dir := .toDevice }
        faulted := false
        faultCode := 0x00 }))

/-- R280, R282: power-on is RESET of every instance. That a builder's request latches are empty then is DEDUCED (log entry
11). That memory lists no byte, the history no event and the inputs nothing is the model's choice (log entries 3, 4 and
16). -/
def Obligations.PowerOnIsResetOfEveryInstance : Prop :=
  State.reset.fr0 = { port := { latch := none, wire := [] }, rsp := statusOnly 0x00 } ∧
    (∀ k, State.reset.db k =
      { port := { latch := none, wire := [] }
        rsp := statusOnly 0x00
        chain := { state := .empty, base := 0, count := 0, buf := 0, len := 0, dir := .toDevice }
        faulted := false
        faultCode := 0x00 }) ∧
    State.reset.mem = [] ∧ State.reset.history = [] ∧ State.reset.inputs = []

/-- R42 says that memory is shared with other agents. That another agent's write is an input of one byte, which changes that
byte, leaves the registers and latches and is not recorded in the event history, is the model's choice (log entry 15). -/
def Obligations.ExternalWriteChangesOneByte : Prop :=
  ∀ (s : State) (a : Word) (b : Byte) (rest : List Input), s.inputs = .extWrite a b :: rest →
    ∃ t, step s = .next t ∧ t = { s with inputs := rest, mem := t.mem } ∧ t.mem.get a.toNat = some b ∧
      ∀ a', a' ≠ a.toNat → t.mem.get a' = s.mem.get a'

/-- Every step keeps the invariant of Safety.lean: memory in canonical form; each chain register set as R36 and R201 say,
its count that of its length in chunks of a size R201 admits (R200); response latches within R34 and R250; fault code and
fault flag in step (R253); held requests as long as LEN (R33). That after a fault the response latches hold only the code is
R34's; for F_MALFORMED it is DEDUCED (log entry 8). The canonical form is the model's (log entry 3), and that a held
malformed word has LEN data bytes is DEDUCED (log entry 5). -/
def Obligations.StepKeepsInvariant : Prop :=
  ∀ s t : State, s.Inv → step s = .next t → t.Inv

/-- The invariant holds after reset. The model's choices in State.reset: the configuration (log entry 2), memory (3), the
inputs (4) and the history (16); that the builders' request latches are empty is DEDUCED (11). -/
def Obligations.ResetSatisfiesInvariant : Prop := State.reset.Inv

/-- R41: no step writes the parameters. That they stand in State is the model's choice (log entry 1). -/
def Obligations.StepNeverWritesTheParameters : Prop :=
  ∀ s t : State, step s = .next t → t.cfg = s.cfg

/-- R40: an operation, a malformed word, a request, a turn or a RESET addressed to the third builder of a machine with two
stops the run (the model's choice, log entry 10). -/
def Obligations.AbsentInstanceStopsTheRun : Prop :=
  ∀ (s : State), s.cfg.nDb = .two →
    (∀ i, builderOf i = some .db2 → exec i s = .fault (.noSuchUnit (.db .db2))) ∧
    (∀ cw data, exec (.reserved (.db .db2) cw data) s = .fault (.noSuchUnit (.db .db2))) ∧
    (∀ rest bytes, s.inputs = .send (.db .db2) bytes :: rest → step s = .fault (.noSuchUnit (.db .db2))) ∧
    (∀ rest, s.inputs = .perform (.db .db2) :: rest → step s = .fault (.noSuchUnit (.db .db2))) ∧
    (∀ rest, s.inputs = .reset (.db .db2) :: rest → step s = .fault (.noSuchUnit (.db .db2)))

/-! ## Header ECC -/

/-- R120, R122, R98: bit `i` of the ECC, `i` from 0 to 5, is the parity of the header bits its mask selects; bits 7:6 are 0. -/
def Obligations.EccBitsAreMaskedParities : Prop :=
  ∀ (ms : EccMasks) (h0 h1 h2 : Byte),
    (∀ (i : Nat) (mask : BitVec 24), [ms.p0, ms.p1, ms.p2, ms.p3, ms.p4, ms.p5][i]? = some mask →
      (ecc ms h0 h1 h2).getLsbD i =
        decide ((List.range 24).countP (fun j => mask.getLsbD j &&
          (if j < 8 then h0.getLsbD j else if j < 16 then h1.getLsbD (j - 8) else h2.getLsbD (j - 16))) % 2 = 1)) ∧
      (ecc ms h0 h1 h2).getLsbD 6 = false ∧ (ecc ms h0 h1 h2).getLsbD 7 = false

/-- R123: over the header word of R120, the ECC is linear, the ECC of a header is the XOR of the columns of its set bits,
and the default columns are those of the table. The default masks are general knowledge, as the spec itself marks them (log
entry 13). -/
def Obligations.EccIsTheXorOfColumns : Prop :=
  (∀ (ms : EccMasks) (h0 h1 h2 : Byte), ecc ms h0 h1 h2 = eccWord ms (h2 ++ h1 ++ h0)) ∧
    (∀ (ms : EccMasks) (x y : BitVec 24), eccWord ms (x ^^^ y) = eccWord ms x ^^^ eccWord ms y) ∧
    (∀ (ms : EccMasks) (d : BitVec 24), eccWord ms d =
      (List.range 24).foldl (fun e j => if d.getLsbD j then e ^^^ eccWord ms (BitVec.twoPow 24 j) else e) 0) ∧
    (List.range 24).map (fun j => eccWord .standard (BitVec.twoPow 24 j)) =
      [0x07, 0x0B, 0x0D, 0x0E, 0x13, 0x15, 0x16, 0x19, 0x1A, 0x1C, 0x23, 0x25, 0x26, 0x29, 0x2A, 0x2C, 0x31, 0x32, 0x34,
        0x38, 0x1F, 0x2F, 0x37, 0x3B]

/-- R124 items 2 to 4: the top two bits are 0, the zero header gives 0, and the default columns are distinct, differ from
the six single bits and have at least three bits set. The default masks are general knowledge, as the spec itself marks them
(log entry 13). -/
def Obligations.EccColumnsTellOneFlippedBit : Prop :=
  (∀ (ms : EccMasks) (h0 h1 h2 : Byte), ecc ms h0 h1 h2 &&& 0xC0 = 0) ∧ (∀ ms : EccMasks, ecc ms 0 0 0 = 0x00) ∧
    ((List.range 24).map (fun j => eccWord .standard (BitVec.twoPow 24 j)) ++ [0x01, 0x02, 0x04, 0x08, 0x10, 0x20]).Nodup ∧
    (∀ j, j < 24 → 3 ≤ (List.range 8).countP fun b => (eccWord .standard (BitVec.twoPow 24 j)).getLsbD b)

/-- R125: ECC completes in every state with the ECC byte as VALUE and as the one output byte, and changes nothing but the
framer's response latches. -/
def Obligations.EccOperationResult : Prop :=
  ∀ (h0 h1 h2 : Byte) (s : State),
    exec (.ecc h0 h1 h2) s = .next { s with fr0 := { s.fr0 with rsp :=
      { status := 0x00, value := (ecc s.cfg.eccMasks h0 h1 h2).setWidth 16, count := 1
        bytes := [ecc s.cfg.eccMasks h0 h1 h2], words := [], pktlenM1 := 0 } } }

/-! ## Payload CRC -/

/-- R142: an entry of the table is the register after eight shifts of its index, one table step is eight bit steps, and the
table-driven routine gives the result of the bitwise one for every input. -/
def Obligations.CrcTableRoutineEqualsBitwise : Prop :=
  crcTable.length = 256 ∧
    (∀ n, n < 256 → crcTable.getD n 0 = crcShifts 8 (BitVec.ofNat 16 n)) ∧
    (∀ (c : Half) (b : Byte), (c >>> 8) ^^^ crcTable.getD ((c ^^^ b.setWidth 16) &&& 0xFF).toNat 0 = crcByte c b) ∧
    (∀ data : List Byte, crc16Table data = crc16 data)

/-- R144 items 1 to 3: the CRC of nothing, of "123456789", and of a sequence computed in pieces. -/
def Obligations.CrcOfAConcatenation : Prop :=
  crc16 [] = 0xFFFF ∧ crc16 [0x31, 0x32, 0x33, 0x34, 0x35, 0x36, 0x37, 0x38, 0x39] = 0x6F91 ∧
    ∀ a b : List Byte, crc16 (a ++ b) = crc16From (crc16 a) b

/-- R146: CRC completes in every state, for every length, with the CRC as VALUE and its two bytes, low first. Data longer
than LEN can say is no well-formed term and answers alike (log entry 18). -/
def Obligations.CrcOperationResult : Prop :=
  ∀ (data : List Byte) (s : State),
    exec (.crc data) s = .next { s with fr0 := { s.fr0 with rsp :=
      { status := 0x00, value := crc16 data, count := 2
        bytes := [(crc16 data).extractLsb' 0 8, (crc16 data).extractLsb' 8 8], words := [], pktlenM1 := 0 } } }

/-! ## Framing -/

/-- R161, with R160's layout: SHORT of one or two bytes completes in every state with the four bytes tag, data, ECC; every
successful output has exactly four bytes, and byte 3 is the ECC of bytes 0 to 2. -/
def Obligations.ShortOutputsFourBytes : Prop :=
  (∀ (d0 : Byte) (s : State),
    exec (.short [d0]) s = .next { s with fr0 := { s.fr0 with rsp :=
      { status := 0x00, value := 0, count := 4, bytes := [0x05, d0, 0x00, ecc s.cfg.eccMasks 0x05 d0 0x00]
        words := [], pktlenM1 := 0 } } }) ∧
  (∀ (d0 d1 : Byte) (s : State),
    exec (.short [d0, d1]) s = .next { s with fr0 := { s.fr0 with rsp :=
      { status := 0x00, value := 0, count := 4, bytes := [0x15, d0, d1, ecc s.cfg.eccMasks 0x15 d0 d1]
        words := [], pktlenM1 := 0 } } }) ∧
  (∀ (data : List Byte) (s t : State), exec (.short data) s = .next t → t.fr0.rsp.status = 0x00 →
    t.fr0.rsp.bytes.length = 4 ∧
      t.fr0.rsp.bytes.getD 3 0 =
        ecc s.cfg.eccMasks (t.fr0.rsp.bytes.getD 0 0) (t.fr0.rsp.bytes.getD 1 0) (t.fr0.rsp.bytes.getD 2 0))

/-- R160: SHORT of any other length answers F_SHORT_LEN and nothing else. Data longer than LEN can say is no well-formed
term and answers alike (log entry 18). -/
def Obligations.ShortFaultsOnOtherLengths : Prop :=
  ∀ (data : List Byte) (s : State), data.length ≠ 1 → data.length ≠ 2 →
    exec (.short data) s = .next { s with fr0 := { s.fr0 with rsp := statusOnly 0x01 } }

/-- R166, with R165's response: LONG of N bytes completes in every state with the N + 6 bytes 0x39, the length low byte
first, the ECC, the payload and the payload's CRC, low byte first. -/
def Obligations.LongOutputsHeaderPayloadCrc : Prop :=
  ∀ (data : List Byte) (s : State), data.length ≤ 65535 →
    ∃ out : List Byte,
      exec (.long data) s = .next { s with fr0 := { s.fr0 with rsp :=
        { status := 0x00, value := crc16 data, count := BitVec.ofNat 32 (data.length + 6), bytes := out
          words := [], pktlenM1 := 0 } } } ∧
      out.length = data.length + 6 ∧ out.getD 0 0 = 0x39 ∧
      (out.getD 1 0).toNat + 256 * (out.getD 2 0).toNat = data.length ∧
      out.getD 3 0 = ecc s.cfg.eccMasks (out.getD 0 0) (out.getD 1 0) (out.getD 2 0) ∧
      (out.drop 4).take data.length = data ∧
      out.getD (data.length + 4) 0 = (crc16 data).extractLsb' 0 8 ∧
      out.getD (data.length + 5) 0 = (crc16 data).extractLsb' 8 8

/-- R171, R170: a framed payload has SHORT's bytes up to two bytes and LONG's from three on; its length, its tag and its
little-endian length field. -/
def Obligations.FramedLengthAndTagFollowTheDispatch : Prop :=
  ∀ (ms : EccMasks) (p : List Byte), 1 ≤ p.length → p.length ≤ 65535 →
    framePacket ms p = framedBytes ms p ∧
      (framePacket ms p).length = (if p.length ≤ 2 then 4 else p.length + 6) ∧
      (framePacket ms p).getD 0 0 = (if p.length = 1 then 0x05 else if p.length = 2 then 0x15 else 0x39) ∧
      (3 ≤ p.length → ((framePacket ms p).getD 1 0).toNat + 256 * ((framePacket ms p).getD 2 0).toNat = p.length)

/-- R170: FRAME completes in every state on every payload but the empty one, with the packet, byte for byte, its length, and
the CRC where the packet is long. -/
def Obligations.FrameOperationResult : Prop :=
  ∀ (data : List Byte) (s : State), 1 ≤ data.length → data.length ≤ 65535 →
    exec (.frame data) s = .next { s with fr0 := { s.fr0 with rsp :=
      { status := 0x00, value := if 3 ≤ data.length then crc16 data else 0
        count := BitVec.ofNat 32 (if data.length ≤ 2 then 4 else data.length + 6)
        bytes := framedBytes s.cfg.eccMasks data, words := [], pktlenM1 := 0 } } }

/-- R176: FRAMEW and SENDCMD complete in every state on payloads of 1 to 250 bytes, with FRAME's response, the
transmit-buffer words and the packet length less one. -/
def Obligations.FramewOperationResult : Prop :=
  ∀ (data : List Byte) (s : State) (i : Instr), i = .framew data ∨ i = .sendcmd data →
    1 ≤ data.length → data.length ≤ 250 →
    exec i s = .next { s with fr0 := { s.fr0 with rsp :=
      { status := 0x00, value := if 3 ≤ data.length then crc16 data else 0
        count := BitVec.ofNat 32 (if data.length ≤ 2 then 4 else data.length + 6)
        bytes := framedBytes s.cfg.eccMasks data
        words := packWords (framedBytes s.cfg.eccMasks data)
        pktlenM1 := BitVec.ofNat 8 (if data.length ≤ 2 then 3 else data.length + 5) } } }

/-- R170, R176: the empty payload answers F_FRAME_EMPTY; FRAMEW of more than 250 bytes answers F_TXBUF_OVERFLOW; nothing
else changes. Data longer than LEN can say is no well-formed term and answers alike (log entry 18). -/
def Obligations.FrameLengthFaults : Prop :=
  ∀ s : State,
    (∀ i, i = .frame [] ∨ i = .framew [] ∨ i = .sendcmd [] →
      exec i s = .next { s with fr0 := { s.fr0 with rsp := statusOnly 0x02 } }) ∧
    (∀ data i, i = .framew data ∨ i = .sendcmd data → 250 < data.length →
      exec i s = .next { s with fr0 := { s.fr0 with rsp := statusOnly 0x03 } })

/-- R178: byte `k` of a packet of F bytes is a byte of word `k / 4`, the padding of the last word is 0, and unpacking the
words of a FRAMEW response and keeping PKTLEN_M1 + 1 bytes gives its bytes. -/
def Obligations.TransmitWordsUnpackToThePacket : Prop :=
  (∀ p : List Byte,
    (packWords p).length = (p.length + 3) / 4 ∧
    (∀ k, k < p.length → ((packWords p).getD (k / 4) 0).extractLsb' (8 * (k % 4)) 8 = p.getD k 0) ∧
    (∀ k, p.length ≤ k → k < 4 * ((p.length + 3) / 4) →
      ((packWords p).getD (k / 4) 0).extractLsb' (8 * (k % 4)) 8 = (0 : Byte))) ∧
  (∀ (data : List Byte) (s : State), 1 ≤ data.length → data.length ≤ 250 →
    ∃ t, exec (.framew data) s = .next t ∧
      (unpack t.fr0.rsp.words).take (t.fr0.rsp.pktlenM1.toNat + 1) = t.fr0.rsp.bytes)

/-- R127: byte 3 of every packet the framer puts out is the ECC of its bytes 0 to 2. -/
def Obligations.EveryPacketCarriesItsEcc : Prop :=
  ∀ (i : Instr) (s t : State),
    (∃ data, i = .short data ∨ i = .long data ∨ i = .frame data ∨ i = .framew data ∨ i = .sendcmd data) →
    exec i s = .next t → t.fr0.rsp.status = 0x00 →
    4 ≤ t.fr0.rsp.bytes.length ∧
      t.fr0.rsp.bytes.getD 3 0 =
        ecc s.cfg.eccMasks (t.fr0.rsp.bytes.getD 0 0) (t.fr0.rsp.bytes.getD 1 0) (t.fr0.rsp.bytes.getD 2 0)

/-- R32: what the framer answers is a function of the request alone: it completes in every state, the response does not
depend on the state, and nothing but the response latches changes. R32 speaks of the framer's operations. That PKT_05,
PKT_15 and PKT_39 answer as instructions (log entry 9) and that terms which are not well-formed answer too (log entry 18) is
the model's choice; that a malformed word at fr0 empties the other response latches is DEDUCED (log entry 8). -/
def Obligations.FramerAnswersFromTheRequestAlone : Prop :=
  ∀ (i : Instr) (c : Config), answeredByFramer i = true →
    ∃ rsp : Rsp, ∀ s : State, s.cfg = c → exec i s = .next { s with fr0 := { s.fr0 with rsp := rsp } }

/-- R252: a fault of the framer leaves its status and nothing else, and the next request is answered as if it had not
happened. That F_MALFORMED at fr0 empties the other response latches is DEDUCED (log entry 8); that the output formats
answer as instructions (log entry 9) and that terms which are not well-formed answer too (log entry 18) is the model's
choice. -/
def Obligations.FramerFaultLeavesOnlyItsStatus : Prop :=
  ∀ (i : Instr) (s t : State), answeredByFramer i = true → exec i s = .next t → t.fr0.rsp.status ≠ 0x00 →
    t = { s with fr0 := { s.fr0 with rsp := statusOnly t.fr0.rsp.status } } ∧
      ∀ j, answeredByFramer j = true →
        ∃ rsp, exec j t = .next { t with fr0 := { t.fr0 with rsp := rsp } } ∧
          exec j s = .next { s with fr0 := { s.fr0 with rsp := rsp } }

/-- R96, R97: the bytes of the three output formats. That an output format, taken as an instruction, answers as the
operation that puts it out is the model's choice (log entry 9). -/
def Obligations.OutputFormatBytes : Prop :=
  (∀ (d0 : Byte) (s : State),
    exec (.pkt05 d0) s = .next { s with fr0 := { s.fr0 with rsp :=
      { status := 0x00, value := 0, count := 4, bytes := [0x05, d0, 0x00, ecc s.cfg.eccMasks 0x05 d0 0x00]
        words := [], pktlenM1 := 0 } } }) ∧
  (∀ (d0 d1 : Byte) (s : State),
    exec (.pkt15 d0 d1) s = .next { s with fr0 := { s.fr0 with rsp :=
      { status := 0x00, value := 0, count := 4, bytes := [0x15, d0, d1, ecc s.cfg.eccMasks 0x15 d0 d1]
        words := [], pktlenM1 := 0 } } }) ∧
  (∀ (p : List Byte) (s : State) (lo hi : Byte), lo.toNat + 256 * hi.toNat = p.length →
    exec (.pkt39 p) s = .next { s with fr0 := { s.fr0 with rsp :=
      { status := 0x00, value := crc16 p, count := BitVec.ofNat 32 (p.length + 6)
        bytes := [0x39, lo, hi, ecc s.cfg.eccMasks 0x39 lo hi] ++ p ++
          [(crc16 p).extractLsb' 0 8, (crc16 p).extractLsb' 8 8]
        words := [], pktlenM1 := 0 } } })

/-! ## The chain builder -/

/-- R200: BUILD and its pseudo-instructions complete in state EMPTY, without an earlier fault, on operands that pass the
checks: the chain registers, RSP.COUNT, and nothing else of any unit. R35: the requester then reads DB.CHAIN_STATE as 1 and
DB.CHAIN_DIR as 0 for BUILD.TO and BUILD.W, 1 for BUILD.FROM and BUILD.R. Memory and history: the two statements that
follow. -/
def Obligations.BuildRecordsTheChain : Prop :=
  ∀ (s : State) (k : DbId) (dir : Dir) (buf l m desc : Word) (i : Instr), i ∈ buildForms dir k buf l m desc →
    s.cfg.hasDb k = true → (s.db k).faulted = false → (s.db k).chain.state = .empty →
    BuildAdmitted s.cfg k buf l m desc →
    ∃ t, exec i s = .next t ∧
      t = ({ s with mem := t.mem, history := t.history } : State).setDb k { s.db k with
        rsp := { status := 0x00, value := 0, count := BitVec.ofNat 32 (chunks l m), bytes := [], words := []
                 pktlenM1 := 0 }
        chain := { state := .built, base := desc, count := BitVec.ofNat 32 (chunks l m), buf := buf, len := l
                   dir := dir } } ∧
      chainStateBits (t.db k).chain.state = 1 ∧
      dirBit (t.db k).chain.dir = (if i = .buildTo k buf l m desc ∨ i = .buildW k buf l m desc then 0 else 1)

/-- R203 to R208, R62: every byte of memory after BUILD. Descriptor `i` lies at DESC + 16 i; DES0 has exactly the flags of
R205 set, DES1 is the chunk's size, DES2 its address, DES3 the next descriptor's address or 0; every byte outside the array
reads as before. -/
def Obligations.BuildWritesExactlyTheDescriptors : Prop :=
  ∀ (s : State) (k : DbId) (dir : Dir) (buf l m desc : Word) (i : Instr), i ∈ buildForms dir k buf l m desc →
    s.cfg.hasDb k = true → (s.db k).faulted = false → (s.db k).chain.state = .empty →
    BuildAdmitted s.cfg k buf l m desc →
    ∃ t, exec i s = .next t ∧
      (∀ n, n < chunks l m →
        (∃ des0 : Word, ReadsWord t.mem (desc.toNat + 16 * n) des0 ∧
          ∀ b : Fin 32, des0.getLsbD b.val = decide (b = s.cfg.descLayout.own ∨ b = s.cfg.descLayout.ch ∨
            (b = s.cfg.descLayout.fd ∧ n = 0) ∨ (b = s.cfg.descLayout.ld ∧ n + 1 = chunks l m) ∨
            (b = s.cfg.descLayout.dic ∧ n + 1 ≠ chunks l m))) ∧
        ReadsWord t.mem (desc.toNat + 16 * n + 4)
          (BitVec.ofNat 32 (if n + 1 = chunks l m then l.toNat - (chunks l m - 1) * m.toNat else m.toNat)) ∧
        ReadsWord t.mem (desc.toNat + 16 * n + 8) (BitVec.ofNat 32 (buf.toNat + n * m.toNat)) ∧
        ReadsWord t.mem (desc.toNat + 16 * n + 12)
          (BitVec.ofNat 32 (if n + 1 = chunks l m then 0 else desc.toNat + 16 * (n + 1)))) ∧
      (∀ a, a < desc.toNat ∨ desc.toNat + 16 * chunks l m ≤ a → t.mem.get a = s.mem.get a)

/-- R74, R204, R209, R16: what BUILD adds to the event history: one write event for each descriptor word, in ascending index
and offset, then one coherence event over the whole buffer. That write events and collaborator events stand in one history
is the model's choice (log entry 16). -/
def Obligations.BuildHistoryIsWritesThenCoherence : Prop :=
  ∀ (s : State) (k : DbId) (dir : Dir) (buf l m desc : Word) (i : Instr), i ∈ buildForms dir k buf l m desc →
    s.cfg.hasDb k = true → (s.db k).faulted = false → (s.db k).chain.state = .empty →
    BuildAdmitted s.cfg k buf l m desc →
    ∃ t, exec i s = .next t ∧
      t.history = s.history ++
        (List.range (chunks l m)).flatMap (fun n =>
          [.memWrite (BitVec.ofNat 32 (desc.toNat + 16 * n)) (descConfig s.cfg.descLayout n (chunks l m)),
           .memWrite (BitVec.ofNat 32 (desc.toNat + 16 * n + 4))
             (BitVec.ofNat 32 (if n + 1 = chunks l m then l.toNat - (chunks l m - 1) * m.toNat else m.toNat)),
           .memWrite (BitVec.ofNat 32 (desc.toNat + 16 * n + 8)) (BitVec.ofNat 32 (buf.toNat + n * m.toNat)),
           .memWrite (BitVec.ofNat 32 (desc.toNat + 16 * n + 12))
             (BitVec.ofNat 32 (if n + 1 = chunks l m then 0 else desc.toNat + 16 * (n + 1)))]) ++
        [.coherence (match dir with | .toDevice => .flush | .fromDevice => .invalidate) buf l]

/-- R206: the sizes of the chunks, and that each fits the size field. -/
def Obligations.ChunkSizesAreBounded : Prop :=
  ∀ (c : Config) (k : DbId) (buf l m desc : Word), BuildAdmitted c k buf l m desc →
    (∀ n, n < chunks l m →
      descSize l.toNat m.toNat n (chunks l m) =
          (if n + 1 < chunks l m then m.toNat else l.toNat - (chunks l m - 1) * m.toNat) ∧
        4 ≤ descSize l.toNat m.toNat n (chunks l m) ∧ descSize l.toNat m.toNat n (chunks l m) ≤ m.toNat ∧
        descSize l.toNat m.toNat n (chunks l m) % 4 = 0 ∧
        descSize l.toNat m.toNat n (chunks l m) < 2 ^ c.sizeFieldBits k) ∧
      (descSize l.toNat m.toNat (chunks l m - 1) (chunks l m) = m.toNat ↔ m.toNat ∣ l.toNat)

/-- R210 items 2, 4 and 7: the sizes add up to L, each chunk starts where the one before ends, the first at BUF and the last
ending at BUF + L, and each next word is the address of the following descriptor, the last one 0. -/
def Obligations.ChunksTileTheBuffer : Prop :=
  ∀ (c : Config) (k : DbId) (buf l m desc : Word), BuildAdmitted c k buf l m desc →
    ((List.range (chunks l m)).map fun n => descSize l.toNat m.toNat n (chunks l m)).sum = l.toNat ∧
      descBuf buf.toNat m.toNat 0 = buf.toNat ∧
      (∀ n, n + 1 < chunks l m → descBuf buf.toNat m.toNat n + descSize l.toNat m.toNat n (chunks l m) =
        descBuf buf.toNat m.toNat (n + 1)) ∧
      descBuf buf.toNat m.toNat (chunks l m - 1) + descSize l.toNat m.toNat (chunks l m - 1) (chunks l m) =
        buf.toNat + l.toNat ∧
      (∀ n, n + 1 < chunks l m → descNext desc.toNat n (chunks l m) = descAddr desc.toNat (n + 1)) ∧
      descNext desc.toNat (chunks l m - 1) (chunks l m) = 0

/-- What R201 does give of R202: at least one descriptor, every descriptor address a multiple of 4 from 4 to 2^32 - 16, no
successor address 0 modulo 2^32 (log entry 7 for the lower bound). -/
def Obligations.DescriptorAddressesAreValid : Prop :=
  ∀ (c : Config) (k : DbId) (buf l m desc : Word), BuildAdmitted c k buf l m desc →
    1 ≤ chunks l m ∧ ∀ n, n < chunks l m →
      4 ≤ descAddr desc.toNat n ∧ descAddr desc.toNat n ≤ 2 ^ 32 - 16 ∧ descAddr desc.toNat n % 4 = 0 ∧
        (n + 1 < chunks l m → descNext desc.toNat n (chunks l m) % 2 ^ 32 ≠ 0)

/-- R202 as its words stand: `1 <= count`, every descriptor address in `[16, 2^32 - 16]`, no successor address 0. R201
admits DESC = 4, 8 and 12, so this is expected to fail (log entry 7). -/
def Obligations.DescriptorAddressesStartAtSixteen : Prop :=
  ∀ (c : Config) (k : DbId) (buf l m desc : Word), BuildAdmitted c k buf l m desc →
    1 ≤ chunks l m ∧ ∀ n, n < chunks l m →
      16 ≤ desc.toNat + 16 * n ∧ desc.toNat + 16 * n ≤ 2 ^ 32 - 16 ∧
        (n + 1 < chunks l m → descNext desc.toNat n (chunks l m) ≠ 0)

/-- R109: the four DES0 values under the default layout. The default layout is general knowledge, as the spec itself marks
it (log entry 13). -/
def Obligations.DefaultConfigWords : Prop :=
  descConfig .standard 0 1 = 0x8000001C ∧
    ∀ count, 2 ≤ count → descConfig .standard 0 count = 0x8000001A ∧
      (∀ n, 0 < n → n + 1 < count → descConfig .standard n count = 0x80000012) ∧
      descConfig .standard (count - 1) count = 0x80000014

/-- R256: in state EMPTY the first operand check that fails, in R201's order, is the fault reported, and nothing is
written. -/
def Obligations.BuildReportsTheFirstOperandFault : Prop :=
  ∀ (s : State) (k : DbId) (dir : Dir) (buf l m desc : Word) (i : Instr), i ∈ buildForms dir k buf l m desc →
    s.cfg.hasDb k = true → (s.db k).faulted = false → (s.db k).chain.state = .empty →
    let badLen := l.toNat = 0 ∨ l.toNat % 4 ≠ 0
    let badChunk := m.toNat = 0 ∨ m.toNat % 4 ≠ 0 ∨ m.toNat > 2 ^ s.cfg.sizeFieldBits k - 1
    let badAlign := buf.toNat % 4 ≠ 0 ∨ desc.toNat % 4 ≠ 0
    let badAddr := desc.toNat = 0 ∨ desc.toNat + 16 * chunks l m > 2 ^ 32 ∨ buf.toNat + l.toNat > 2 ^ 32
    let overlap := desc.toNat < buf.toNat + l.toNat ∧ buf.toNat < desc.toNat + 16 * chunks l m
    (badLen → exec i s = .next (faultedState s k 0x10)) ∧
      (¬ badLen → badChunk → exec i s = .next (faultedState s k 0x11)) ∧
      (¬ badLen → ¬ badChunk → badAlign → exec i s = .next (faultedState s k 0x12)) ∧
      (¬ badLen → ¬ badChunk → ¬ badAlign → badAddr → exec i s = .next (faultedState s k 0x13)) ∧
      (¬ badLen → ¬ badChunk → ¬ badAlign → ¬ badAddr → overlap → exec i s = .next (faultedState s k 0x14))

/-- R223: BUILD while a chain exists answers F_CHAIN_BUSY, whatever its operands, and leaves the chain. -/
def Obligations.BuildWhileAChainExistsIsBusy : Prop :=
  ∀ (s : State) (k : DbId) (dir : Dir) (buf l m desc : Word) (i : Instr), i ∈ buildForms dir k buf l m desc →
    s.cfg.hasDb k = true → (s.db k).faulted = false → (s.db k).chain.state ≠ .empty →
    exec i s = .next (faultedState s k 0x15)

/-- R65, R16, R201: every write event an instruction adds is at a multiple of 4; a BUILD with a misaligned DESC whose length
and chunk size pass answers F_CHAIN_ALIGN and writes nothing. That the write events stand in the history with the
collaborator events is the model's choice (log entry 16). -/
def Obligations.DescriptorWritesAreAligned : Prop :=
  (∀ (i : Instr) (s t : State) (a v : Word) (added : List Event), exec i s = .next t → t.history = s.history ++ added →
    .memWrite a v ∈ added → a.toNat % 4 = 0) ∧
  (∀ (s : State) (k : DbId) (dir : Dir) (buf l m desc : Word) (i : Instr), i ∈ buildForms dir k buf l m desc →
    s.cfg.hasDb k = true → (s.db k).faulted = false → (s.db k).chain.state = .empty →
    l.toNat ≠ 0 → l.toNat % 4 = 0 → m.toNat ≠ 0 → m.toNat % 4 = 0 → m.toNat ≤ 2 ^ s.cfg.sizeFieldBits k - 1 →
    desc.toNat % 4 ≠ 0 → exec i s = .next (faultedState s k 0x12))

/-- R212: RELEASE completes in BUILT and DONE: it frees the array, answers the count and clears every chain register; memory
stays. The one history for all events is the model's choice (log entry 16). -/
def Obligations.ReleaseFreesTheChain : Prop :=
  ∀ (s : State) (k : DbId), s.cfg.hasDb k = true → (s.db k).faulted = false →
    (s.db k).chain.state = .built ∨ (s.db k).chain.state = .done →
    exec (.release k) s = .next
      (({ s with history := s.history ++ [.free (s.db k).chain.base] } : State).setDb k { s.db k with
        rsp := { status := 0x00, value := 0, count := (s.db k).chain.count, bytes := [], words := [], pktlenM1 := 0 }
        chain := { state := .empty, base := 0, count := 0, buf := 0, len := 0, dir := .toDevice } })

/-- R215, R219: EV_ENABLED completes in BUILT and moves it to HW; EV_COMPLETE completes in HW and moves it to DONE; neither
changes another chain register, memory or the history. R35: the requester reads EMPTY, BUILT, HW and DONE as 0, 1, 2 and 3
and no encoding is reserved, TO_DEVICE and FROM_DEVICE as 0 and 1, and so the notifications move what it reads from 1 to 2
and from 2 to 3. -/
def Obligations.NotificationsMoveTheOwnership : Prop :=
  (chainStateBits .empty = 0 ∧ chainStateBits .built = 1 ∧ chainStateBits .hw = 2 ∧ chainStateBits .done = 3 ∧
    (∀ bits : BitVec 2, ∃ c, chainStateBits c = bits) ∧ dirBit .toDevice = 0 ∧ dirBit .fromDevice = 1) ∧
  (∀ (s : State) (k : DbId) (i : Instr) (t : State), i = .evEnabled k ∨ i = .evComplete k → exec i s = .next t →
    (t.db k).rsp.status = 0x00 →
    chainStateBits (t.db k).chain.state = chainStateBits (s.db k).chain.state + 1 ∧
      dirBit (t.db k).chain.dir = dirBit (s.db k).chain.dir) ∧
  ∀ (s : State) (k : DbId), s.cfg.hasDb k = true → (s.db k).faulted = false →
    ((s.db k).chain.state = .built → exec (.evEnabled k) s = .next
      (s.setDb k { s.db k with rsp := statusOnly 0x00, chain := { (s.db k).chain with state := .hw } })) ∧
    ((s.db k).chain.state = .hw → exec (.evComplete k) s = .next
      (s.setDb k { s.db k with rsp := statusOnly 0x00, chain := { (s.db k).chain with state := .done } }))

/-- R222: the whole transition table, with RELEASE's Free event, and F_STICKY after a fault. -/
def Obligations.TransitionTable : Prop :=
  ∀ (s : State) (k : DbId), s.cfg.hasDb k = true →
    ((s.db k).faulted = false → ∀ (op : ChainOp) (i : Instr), op.Admits s.cfg k i →
      ∃ t, exec i s = .next t ∧
        match cell (s.db k).chain.state op with
        | .inl next => (t.db k).chain.state = next ∧ (t.db k).rsp.status = 0x00 ∧ (t.db k).faulted = false ∧
            (t.db k).faultCode = (s.db k).faultCode ∧
            ((∃ j, i = .release j) → t.history = s.history ++ [.free (s.db k).chain.base])
        | .inr code => t = faultedState s k code) ∧
    ((s.db k).faulted = true → ∀ i, builderOf i = some k →
      exec i s = .next (s.setDb k { s.db k with rsp := statusOnly 0x1F }))

/-- R254: whatever builder operation faults, it has changed nothing but its response latches, the sticky flag and the first
fault code. -/
def Obligations.BuilderFaultIsPrecise : Prop :=
  ∀ (i : Instr) (k : DbId) (s t : State), builderOf i = some k → exec i s = .next t → (t.db k).rsp.status ≠ 0x00 →
    t = s.setDb k { s.db k with
      rsp := statusOnly (t.db k).rsp.status
      faulted := true
      faultCode := if (s.db k).faulted then (s.db k).faultCode else (t.db k).rsp.status }

/-- R253, R262: once faulted, an instance stays so, with the first code and the chain it had, through every step but its
RESET. RESET comes as an input (log entry 4). -/
def Obligations.FaultStaysUntilReset : Prop :=
  ∀ (s t : State) (k : DbId), (s.db k).faulted = true → step s = .next t →
    (∀ rest, s.inputs ≠ .reset (.db k) :: rest) →
    (t.db k).faulted = true ∧ (t.db k).faultCode = (s.db k).faultCode ∧ (t.db k).chain = (s.db k).chain

/-- R224: a builder operation leaves the framer, the other builders and every byte outside the chain it builds; what it
does depends on its own instance's registers alone. -/
def Obligations.BuilderInstancesAreIndependent : Prop :=
  ∀ (i : Instr) (k : DbId) (s t : State), builderOf i = some k → exec i s = .next t →
    (t.fr0 = s.fr0 ∧ (∀ j, j ≠ k → t.db j = s.db j) ∧ t.inputs = s.inputs ∧
      (∀ a, a < (t.db k).chain.base.toNat ∨
        (t.db k).chain.base.toNat + 16 * (t.db k).chain.count.toNat ≤ a → t.mem.get a = s.mem.get a)) ∧
    (∀ s' : State, s'.cfg = s.cfg → s'.db k = s.db k →
      ∃ t', exec i s' = .next t' ∧ t'.db k = t.db k ∧
        (∃ added, t.history = s.history ++ added ∧ t'.history = s'.history ++ added) ∧
        (∀ a, t.mem.get a ≠ s.mem.get a → t'.mem.get a = t.mem.get a))

/-- R60: of all instructions only BUILD reaches memory: every other one leaves it as it is, in every state. The output
formats as instructions are the model's choice (log entry 9). -/
def Obligations.OnlyBuildReachesMemory : Prop :=
  ∀ (i : Instr) (s t : State), exec i s = .next t →
    (∀ dir k buf l m desc, i ∉ buildForms dir k buf l m desc) → t.mem = s.mem

/-- R217, R293: a step takes a chain away from the hardware only by performing EV_COMPLETE at its instance, which gives
DONE, or by that instance's RESET, which gives EMPTY. RESET comes as an input (log entry 4). -/
def Obligations.HardwareKeepsTheChainUntilCompletionOrReset : Prop :=
  ∀ (s t : State) (k : DbId), (s.db k).chain.state = .hw → step s = .next t → (t.db k).chain.state ≠ .hw →
    ((∃ r, (s.port (.db k)).latch = some r ∧ decode (.db k) r = .evComplete k) ∧ (t.db k).chain.state = .done) ∨
      ((∃ rest, s.inputs = .reset (.db k) :: rest) ∧ (t.db k).chain.state = .empty)

/-- R62: a word write stores its bytes least significant first, at the four addresses from `a`, and leaves every other byte;
canonical memory, a form of the model's (log entry 3), stays canonical. -/
def Obligations.WordWritesAreLittleEndian : Prop :=
  ∀ (s : State) (a v : Word), a.toNat % 4 = 0 →
    (s.memWrite a v).mem.get a.toNat = some (v.extractLsb' 0 8) ∧
      (s.memWrite a v).mem.get (a.toNat + 1) = some (v.extractLsb' 8 8) ∧
      (s.memWrite a v).mem.get (a.toNat + 2) = some (v.extractLsb' 16 8) ∧
      (s.memWrite a v).mem.get (a.toNat + 3) = some (v.extractLsb' 24 8) ∧
      (∀ a', a' < a.toNat ∨ a.toNat + 4 ≤ a' → (s.memWrite a v).mem.get a' = s.mem.get a') ∧
      (s.mem.wf → (s.memWrite a v).mem.wf)
end

