-- ==== Sys2Proof/Laws/State.lean ====
section
/-! SUPPORT. One lemma for each field of State and each update of it, so that no later proof unfolds a record update. -/

namespace Sys2Proof.Machine

open Sys2Proof

/-! ## Builder instances -/

@[simp] theorem State.db_db0 (s : State) : s.db .db0 = s.db0 := rfl
@[simp] theorem State.db_db1 (s : State) : s.db .db1 = s.db1 := rfl
@[simp] theorem State.db_db2 (s : State) : s.db .db2 = s.db2 := rfl

@[simp] theorem State.setDb_db_same (s : State) (k : DbId) (d : DbUnit) : (s.setDb k d).db k = d := by
  cases k <;> rfl

theorem State.setDb_db_ne (s : State) {k j : DbId} (d : DbUnit) (h : j ≠ k) : (s.setDb k d).db j = s.db j := by
  cases k <;> cases j <;> first | rfl | exact absurd rfl h

theorem State.setDb_db (s : State) (k j : DbId) (d : DbUnit) :
    (s.setDb k d).db j = if j = k then d else s.db j := by
  by_cases h : j = k
  · subst h; simp
  · simp [h, State.setDb_db_ne s d h]

@[simp] theorem State.setDb_cfg (s : State) (k : DbId) (d : DbUnit) : (s.setDb k d).cfg = s.cfg := by cases k <;> rfl
@[simp] theorem State.setDb_fr0 (s : State) (k : DbId) (d : DbUnit) : (s.setDb k d).fr0 = s.fr0 := by cases k <;> rfl
@[simp] theorem State.setDb_mem (s : State) (k : DbId) (d : DbUnit) : (s.setDb k d).mem = s.mem := by cases k <;> rfl
@[simp] theorem State.setDb_history (s : State) (k : DbId) (d : DbUnit) : (s.setDb k d).history = s.history := by
  cases k <;> rfl
@[simp] theorem State.setDb_inputs (s : State) (k : DbId) (d : DbUnit) : (s.setDb k d).inputs = s.inputs := by
  cases k <;> rfl
@[simp] theorem State.setDb_self (s : State) (k : DbId) : s.setDb k (s.db k) = s := by cases k <;> rfl
@[simp] theorem State.setDb_setDb (s : State) (k : DbId) (d d' : DbUnit) : (s.setDb k d).setDb k d' = s.setDb k d' := by
  cases k <;> rfl

/-- Two states are equal when every part of them is. -/
theorem State.ext_parts {s t : State} (hcfg : s.cfg = t.cfg) (hfr : s.fr0 = t.fr0) (hdb : ∀ k, s.db k = t.db k)
    (hmem : s.mem = t.mem) (hhist : s.history = t.history) (hin : s.inputs = t.inputs) : s = t := by
  have h0 := hdb .db0
  have h1 := hdb .db1
  have h2 := hdb .db2
  cases s
  cases t
  simp_all [State.db]

/-! ## The builder accessor under updates of other fields -/

@[simp] theorem State.db_with_fr0 (s : State) (f : FrUnit) (k : DbId) : ({ s with fr0 := f } : State).db k = s.db k := by
  cases k <;> rfl
@[simp] theorem State.db_with_mem (s : State) (m : Memory) (h : List Event) (k : DbId) :
    ({ s with mem := m, history := h } : State).db k = s.db k := by cases k <;> rfl
@[simp] theorem State.db_with_inputs (s : State) (l : List Input) (k : DbId) :
    ({ s with inputs := l } : State).db k = s.db k := by cases k <;> rfl

/-! ## Ports and response latches -/

@[simp] theorem State.setPort_fr0_eq (s : State) (p : Port) : s.setPort .fr0 p = { s with fr0 := { s.fr0 with port := p } } :=
  rfl
@[simp] theorem State.setPort_db_eq (s : State) (k : DbId) (p : Port) :
    s.setPort (.db k) p = s.setDb k { s.db k with port := p } := rfl
@[simp] theorem State.setRsp_fr0_eq (s : State) (r : Rsp) : s.setRsp .fr0 r = { s with fr0 := { s.fr0 with rsp := r } } :=
  rfl
@[simp] theorem State.setRsp_db_eq (s : State) (k : DbId) (r : Rsp) :
    s.setRsp (.db k) r = s.setDb k { s.db k with rsp := r } := rfl
@[simp] theorem State.port_fr0 (s : State) : s.port .fr0 = s.fr0.port := rfl
@[simp] theorem State.port_db (s : State) (k : DbId) : s.port (.db k) = (s.db k).port := rfl
@[simp] theorem State.rsp_fr0 (s : State) : s.rsp .fr0 = s.fr0.rsp := rfl
@[simp] theorem State.rsp_db (s : State) (k : DbId) : s.rsp (.db k) = (s.db k).rsp := rfl

theorem State.setPort_port_same (s : State) (u : UnitId) (p : Port) : (s.setPort u p).port u = p := by
  cases u <;> simp

/-- The pending inputs are no part of a port. -/
@[simp] theorem State.port_with_inputs (s : State) (l : List Input) (u : UnitId) :
    ({ s with inputs := l } : State).port u = s.port u := by
  cases u with
  | fr0 => rfl
  | db k => cases k <;> rfl

theorem State.setPort_cfg (s : State) (u : UnitId) (p : Port) : (s.setPort u p).cfg = s.cfg := by cases u <;> simp
theorem State.setPort_mem (s : State) (u : UnitId) (p : Port) : (s.setPort u p).mem = s.mem := by cases u <;> simp
theorem State.setPort_history (s : State) (u : UnitId) (p : Port) : (s.setPort u p).history = s.history := by
  cases u <;> simp
theorem State.setPort_inputs (s : State) (u : UnitId) (p : Port) : (s.setPort u p).inputs = s.inputs := by
  cases u <;> simp

/-- Replacing a port leaves everything else of a builder. -/
theorem State.setPort_db_fields (s : State) (u : UnitId) (p : Port) (k : DbId) :
    ((s.setPort u p).db k).rsp = (s.db k).rsp ∧ ((s.setPort u p).db k).chain = (s.db k).chain ∧
      ((s.setPort u p).db k).faulted = (s.db k).faulted ∧ ((s.setPort u p).db k).faultCode = (s.db k).faultCode := by
  cases u with
  | fr0 => simp
  | db j =>
    rw [State.setPort_db_eq, State.setDb_db]
    split
    · next h => subst h; simp
    · simp

/-! ## The framer's completion and fault -/

theorem State.respond_eq (s : State) (r : Rsp) : s.respond r = { s with fr0 := { s.fr0 with rsp := r } } := rfl

theorem State.statusFault_fr0 (s : State) (c : Status) :
    s.statusFault .fr0 c = { s with fr0 := { s.fr0 with rsp := Rsp.faulted c } } := rfl

/-! ## Inputs -/

theorem State.extWrite_eq (s : State) (a : Word) (b : Byte) :
    s.extWrite a b = { s with mem := s.mem.set a.toNat b } := rfl

@[simp] theorem State.db_extWrite (s : State) (a : Word) (b : Byte) (k : DbId) : (s.extWrite a b).db k = s.db k := by
  cases k <;> rfl

end Sys2Proof.Machine
end

