-- ==== Sys2Proof/Laws/Memory.lean ====
section
/-! SUPPORT. What reading a byte gives after a write, and that every memory operation keeps the canonical form. -/

namespace Sys2Proof.Machine

open Sys2Proof

@[simp] theorem Memory.get_set_same (m : Memory) (a : Nat) (b : Byte) : (m.set a b).get a = some b := by
  induction m with
  | nil => simp [Memory.set, Memory.get]
  | cons c m ih =>
    obtain ⟨x, y⟩ := c
    simp only [Memory.set]
    split
    · simp [Memory.get]
    · split
      · simp [Memory.get]
      · next h =>
        have : ¬ x = a := fun e => h e.symm
        simp [Memory.get, this, ih]

theorem Memory.get_set_ne (m : Memory) {a a' : Nat} (b : Byte) (h : a' ≠ a) : (m.set a b).get a' = m.get a' := by
  have h' : ¬ a = a' := fun e => h e.symm
  induction m with
  | nil => simp [Memory.set, Memory.get, h']
  | cons c m ih =>
    obtain ⟨x, y⟩ := c
    simp only [Memory.set]
    split
    · simp [Memory.get, h']
    · split
      · next hx => subst hx; simp [Memory.get, h']
      · simp [Memory.get, ih]

theorem Memory.mem_set {m : Memory} {a : Nat} {b : Byte} {c : Host.Cell} (h : c ∈ m.set a b) : c = (a, b) ∨ c ∈ m := by
  induction m with
  | nil => simpa [Memory.set] using h
  | cons d m ih =>
    obtain ⟨x, y⟩ := d
    simp only [Memory.set] at h
    split at h
    · simpa using h
    · split at h
      · rcases List.mem_cons.1 h with h | h
        · exact .inl h
        · exact .inr (List.mem_cons_of_mem _ h)
      · rcases List.mem_cons.1 h with h | h
        · exact .inr (h ▸ List.mem_cons_self)
        · exact (ih h).imp id (List.mem_cons_of_mem _)

theorem Memory.wf_nil : Memory.wf [] := ⟨List.Pairwise.nil, by simp⟩

/-- Writing a byte inside the address space keeps the canonical form. -/
theorem Memory.wf_set {m : Memory} (h : m.wf) {a : Nat} (ha : a < 2 ^ 32) (b : Byte) : (m.set a b).wf := by
  refine ⟨?_, fun c hc => (Memory.mem_set hc).elim (fun e => e ▸ ha) (h.2 c)⟩
  have hp := h.1
  clear h
  induction m with
  | nil => simp [Memory.set]
  | cons d m ih =>
    obtain ⟨x, y⟩ := d
    obtain ⟨hx, hm⟩ := List.pairwise_cons.1 hp
    simp only [Memory.set]
    split
    · next hlt =>
      refine List.pairwise_cons.2 ⟨fun c hc => ?_, hp⟩
      rcases List.mem_cons.1 hc with rfl | hc
      · exact hlt
      · exact Nat.lt_trans hlt (hx c hc)
    · split
      · next he => subst he; exact List.pairwise_cons.2 ⟨hx, hm⟩
      · refine List.pairwise_cons.2 ⟨fun c hc => ?_, ih hm⟩
        rcases Memory.mem_set hc with rfl | hc
        · exact Nat.lt_of_le_of_ne (Nat.le_of_not_lt ‹_›) fun e => ‹¬ a = x› e.symm
        · exact hx c hc

/-- A word write puts byte `j` of the word at offset `j` (R62). -/
theorem Memory.get_write32_at (m : Memory) (a : Nat) (v : Word) {j : Nat} (hj : j < 4) :
    (m.write32 a v).get (a + j) = some (v.extractLsb' (8 * j) 8) := by
  have h : j = 0 ∨ j = 1 ∨ j = 2 ∨ j = 3 := by omega
  rcases h with rfl | rfl | rfl | rfl <;>
    simp [Memory.write32, Memory.get_set_ne, Memory.get_set_same]

/-- A word write leaves every other byte alone. -/
theorem Memory.get_write32_off (m : Memory) {a a' : Nat} (v : Word) (h : a' < a ∨ a + 4 ≤ a') :
    (m.write32 a v).get a' = m.get a' := by
  unfold Memory.write32
  rw [Memory.get_set_ne _ _ (by omega), Memory.get_set_ne _ _ (by omega), Memory.get_set_ne _ _ (by omega),
    Memory.get_set_ne _ _ (by omega)]

theorem Memory.wf_write32 {m : Memory} (h : m.wf) {a : Nat} (ha : a + 3 < 2 ^ 32) (v : Word) : (m.write32 a v).wf := by
  refine Memory.wf_set (Memory.wf_set (Memory.wf_set (Memory.wf_set h ?_ _) ?_ _) ?_ _) ?_ _ <;> omega

/-! ## Sequences of word writes -/

/-- The memory after a sequence of word writes. -/
def Memory.writeAll (m : Memory) (ws : List (Word × Word)) : Memory :=
  ws.foldl (fun m w => m.write32 w.1.toNat w.2) m

/-- Everything a sequence of word writes does: memory, and one write event each, in order (R16, R74). -/
theorem State.memWrites_eq (s : State) (ws : List (Word × Word)) :
    s.memWrites ws =
      { s with mem := s.mem.writeAll ws, history := s.history ++ ws.map fun w => .memWrite w.1 w.2 } := by
  induction ws generalizing s with
  | nil => simp [State.memWrites, Memory.writeAll]
  | cons w ws ih => simp [State.memWrites, ih, State.memWrite, Memory.writeAll]

theorem State.emits_eq (s : State) (es : List Event) :
    es.foldl State.emit s = { s with history := s.history ++ es } := by
  induction es generalizing s with
  | nil => simp
  | cons e es ih => simp [ih, State.emit]

theorem Memory.get_writeAll_off (m : Memory) (ws : List (Word × Word)) {a : Nat}
    (h : ∀ w ∈ ws, a < w.1.toNat ∨ w.1.toNat + 4 ≤ a) : (m.writeAll ws).get a = m.get a := by
  induction ws generalizing m with
  | nil => rfl
  | cons w ws ih =>
    have hw := h w (by simp)
    have := ih (m.write32 w.1.toNat w.2) fun w' hw' => h w' (by simp [hw'])
    simpa [Memory.writeAll, Memory.get_write32_off _ _ hw] using this

theorem Memory.wf_writeAll {m : Memory} (hm : m.wf) (ws : List (Word × Word))
    (h : ∀ w ∈ ws, w.1.toNat + 3 < 2 ^ 32) : (m.writeAll ws).wf := by
  induction ws generalizing m with
  | nil => exact hm
  | cons w ws ih =>
    exact ih (Memory.wf_write32 hm (h w (by simp)) w.2) fun w' hw' => h w' (by simp [hw'])

/-- In a sequence of writes at strictly separated addresses, each write is read back. -/
theorem Memory.get_writeAll_at (m : Memory) (ws : List (Word × Word))
    (hsep : ws.Pairwise fun w w' => w.1.toNat + 4 ≤ w'.1.toNat) {w : Word × Word} (hw : w ∈ ws) {j : Nat} (hj : j < 4) :
    (m.writeAll ws).get (w.1.toNat + j) = some (w.2.extractLsb' (8 * j) 8) := by
  induction ws generalizing m with
  | nil => simp at hw
  | cons v ws ih =>
    obtain ⟨hv, hws⟩ := List.pairwise_cons.1 hsep
    rcases List.mem_cons.1 hw with rfl | hw
    · have := Memory.get_writeAll_off (m.write32 w.1.toNat w.2) ws (a := w.1.toNat + j) fun w' hw' =>
        .inl (by have := hv w' hw'; omega)
      simpa [Memory.writeAll, Memory.get_write32_at m w.1.toNat w.2 hj] using this
    · exact ih _ hws hw

end Sys2Proof.Machine
end

