-- ==== Sys2Proof/Laws/Ops.lean ====
section
/-! SUPPORT. For each shared operation, everything it can do, said once. -/

namespace Sys2Proof.Machine

open Sys2Proof

/-! ## The fault step (R253) -/

theorem State.dbFault_db_same (s : State) (k : DbId) (c : Status) :
    (s.dbFault k c).db k =
      { s.db k with
        rsp := Rsp.faulted c
        faultCode := if c ≠ .sticky ∧ (s.db k).faulted = false then statusCode c else (s.db k).faultCode
        faulted := true } := by
  simp [State.dbFault]

@[simp] theorem State.dbFault_cfg (s : State) (k : DbId) (c : Status) : (s.dbFault k c).cfg = s.cfg := by
  simp [State.dbFault]
@[simp] theorem State.dbFault_fr0 (s : State) (k : DbId) (c : Status) : (s.dbFault k c).fr0 = s.fr0 := by
  simp [State.dbFault]
@[simp] theorem State.dbFault_mem (s : State) (k : DbId) (c : Status) : (s.dbFault k c).mem = s.mem := by
  simp [State.dbFault]
@[simp] theorem State.dbFault_history (s : State) (k : DbId) (c : Status) : (s.dbFault k c).history = s.history := by
  simp [State.dbFault]
@[simp] theorem State.dbFault_inputs (s : State) (k : DbId) (c : Status) : (s.dbFault k c).inputs = s.inputs := by
  simp [State.dbFault]
theorem State.dbFault_db_ne (s : State) {k j : DbId} (c : Status) (h : j ≠ k) : (s.dbFault k c).db j = s.db j :=
  State.setDb_db_ne _ _ h

/-! ## The commit of a builder's effect -/

/-- Everything a commit does. -/
theorem State.dbCommit_eq (s : State) (k : DbId) (e : DbEffect) :
    s.dbCommit k e =
      ({ s with
          mem := s.mem.writeAll e.writes
          history := s.history ++ (e.writes.map fun w => .memWrite w.1 w.2) ++ e.events } : State).setDb k
        { s.db k with rsp := { Rsp.empty with count := e.count }, chain := e.chain } := by
  simp [State.dbCommit, State.memWrites_eq, State.emits_eq]

theorem State.dbCommit_db_same (s : State) (k : DbId) (e : DbEffect) :
    (s.dbCommit k e).db k = { s.db k with rsp := { Rsp.empty with count := e.count }, chain := e.chain } := by
  simp [State.dbCommit_eq]

theorem State.dbCommit_db_ne (s : State) {k j : DbId} (e : DbEffect) (h : j ≠ k) : (s.dbCommit k e).db j = s.db j := by
  rw [State.dbCommit_eq, State.setDb_db_ne _ _ h, State.db_with_mem]

@[simp] theorem State.dbCommit_cfg (s : State) (k : DbId) (e : DbEffect) : (s.dbCommit k e).cfg = s.cfg := by
  simp [State.dbCommit_eq]
@[simp] theorem State.dbCommit_fr0 (s : State) (k : DbId) (e : DbEffect) : (s.dbCommit k e).fr0 = s.fr0 := by
  simp [State.dbCommit_eq]
@[simp] theorem State.dbCommit_mem (s : State) (k : DbId) (e : DbEffect) :
    (s.dbCommit k e).mem = s.mem.writeAll e.writes := by simp [State.dbCommit_eq]
@[simp] theorem State.dbCommit_history (s : State) (k : DbId) (e : DbEffect) :
    (s.dbCommit k e).history = s.history ++ (e.writes.map fun w => .memWrite w.1 w.2) ++ e.events := by
  simp [State.dbCommit_eq]
@[simp] theorem State.dbCommit_inputs (s : State) (k : DbId) (e : DbEffect) : (s.dbCommit k e).inputs = s.inputs := by
  simp [State.dbCommit_eq]

/-! ## A builder operation -/

/-- Everything a builder operation that answers a next state can have done: F_STICKY after an earlier fault, a fault of
its own, or its effect. -/
theorem dbOperation_next {k : DbId} {op : DbUnit → Except Status DbEffect} {s t : State}
    (h : dbOperation k op s = .next t) :
    s.cfg.hasDb k = true ∧
      (((s.db k).faulted = true ∧ t = s.dbFault k .sticky) ∨
        (∃ c, (s.db k).faulted = false ∧ op (s.db k) = .error c ∧ t = s.dbFault k c) ∨
        (∃ e, (s.db k).faulted = false ∧ op (s.db k) = .ok e ∧ t = s.dbCommit k e)) := by
  unfold dbOperation at h
  split at h
  · next hk =>
    refine ⟨hk, ?_⟩
    split at h
    · next hf => exact .inl ⟨hf, by injection h with h; exact h.symm⟩
    · next hf =>
      have hf : (s.db k).faulted = false := by simpa using hf
      split at h
      · next c hc => exact .inr (.inl ⟨c, hf, hc, by injection h with h; exact h.symm⟩)
      · next e he => exact .inr (.inr ⟨e, hf, he, by injection h with h; exact h.symm⟩)
  · cases h

theorem dbOperation_sticky {k : DbId} {op : DbUnit → Except Status DbEffect} {s : State} (hk : s.cfg.hasDb k = true)
    (hf : (s.db k).faulted = true) : dbOperation k op s = .next (s.dbFault k .sticky) := by
  simp [dbOperation, hk, hf]

theorem dbOperation_error {k : DbId} {op : DbUnit → Except Status DbEffect} {s : State} {c : Status}
    (hk : s.cfg.hasDb k = true) (hf : (s.db k).faulted = false) (ho : op (s.db k) = .error c) :
    dbOperation k op s = .next (s.dbFault k c) := by
  simp [dbOperation, hk, hf, ho]

theorem dbOperation_ok {k : DbId} {op : DbUnit → Except Status DbEffect} {s : State} {e : DbEffect}
    (hk : s.cfg.hasDb k = true) (hf : (s.db k).faulted = false) (ho : op (s.db k) = .ok e) :
    dbOperation k op s = .next (s.dbCommit k e) := by
  simp [dbOperation, hk, hf, ho]

/-! ## The operations -/

theorem buildOp_busy {c : Config} {k : DbId} {dir : Dir} {buf l m desc : Word} {d : DbUnit}
    (h : d.chain.state ≠ .empty) : buildOp c k dir buf l m desc d = .error .chainBusy := by
  simp [buildOp, h]

theorem buildOp_operandFault {c : Config} {k : DbId} {dir : Dir} {buf l m desc : Word} {d : DbUnit} {f : Status}
    (h : d.chain.state = .empty)
    (hc : checkOperands (sizeMax c k) buf.toNat l.toNat m.toNat desc.toNat = some f) :
    buildOp c k dir buf l m desc d = .error f := by
  simp [buildOp, h, hc]

theorem buildOp_builds {c : Config} {k : DbId} {dir : Dir} {buf l m desc : Word} {d : DbUnit}
    (h : d.chain.state = .empty)
    (hc : checkOperands (sizeMax c k) buf.toNat l.toNat m.toNat desc.toNat = none) :
    buildOp c k dir buf l m desc d = .ok (buildEffect c.descLayout dir buf l m desc) := by
  simp [buildOp, h, hc]

/-- Everything BUILD can decide. -/
theorem buildOp_cases (c : Config) (k : DbId) (dir : Dir) (buf l m desc : Word) (d : DbUnit) :
    (d.chain.state ≠ .empty ∧ buildOp c k dir buf l m desc d = .error .chainBusy) ∨
      (∃ f, d.chain.state = .empty ∧
        checkOperands (sizeMax c k) buf.toNat l.toNat m.toNat desc.toNat = some f ∧
        buildOp c k dir buf l m desc d = .error f) ∨
      (d.chain.state = .empty ∧
        checkOperands (sizeMax c k) buf.toNat l.toNat m.toNat desc.toNat = none ∧
        buildOp c k dir buf l m desc d = .ok (buildEffect c.descLayout dir buf l m desc)) := by
  by_cases h : d.chain.state = .empty
  · cases hc : checkOperands (sizeMax c k) buf.toNat l.toNat m.toNat desc.toNat with
    | some f => exact .inr (.inl ⟨f, h, rfl, buildOp_operandFault h hc⟩)
    | none => exact .inr (.inr ⟨h, rfl, buildOp_builds h hc⟩)
  · exact .inl ⟨h, buildOp_busy h⟩

/-- The checks of R201 pass exactly when every one of its conditions fails. -/
theorem checkOperands_none {smax buf l m desc : Nat} :
    checkOperands smax buf l m desc = none ↔
      (l ≠ 0 ∧ l % 4 = 0) ∧ (m ≠ 0 ∧ m % 4 = 0 ∧ m ≤ smax) ∧ (buf % 4 = 0 ∧ desc % 4 = 0) ∧
        (desc ≠ 0 ∧ desc + 16 * ceilDiv l m ≤ 2 ^ 32 ∧ buf + l ≤ 2 ^ 32) ∧
        (buf + l ≤ desc ∨ desc + 16 * ceilDiv l m ≤ buf) := by
  unfold checkOperands descBytes
  repeat' split
  all_goals simp only [reduceCtorEq, false_iff, true_iff]
  all_goals omega

/-- A check of R201 that fails is one of the five operand faults. -/
theorem checkOperands_some {smax buf l m desc : Nat} {f : Status} (h : checkOperands smax buf l m desc = some f) :
    f = .chainLen ∨ f = .chainChunk ∨ f = .chainAlign ∨ f = .chainAddr ∨ f = .chainOverlap := by
  unfold checkOperands at h
  repeat' split at h
  all_goals simp_all

/-! ## Chunk arithmetic -/

theorem ceilDiv_pos {l m : Nat} (hl : 0 < l) (hm : 0 < m) : 1 ≤ ceilDiv l m := by
  unfold ceilDiv
  exact (Nat.one_le_div_iff hm).2 (by omega)

/-- `(ceil(l/m) - 1) * m < l ≤ ceil(l/m) * m`. -/
theorem ceilDiv_bounds {l m : Nat} (hl : 0 < l) (hm : 0 < m) :
    (ceilDiv l m - 1) * m < l ∧ l ≤ ceilDiv l m * m := by
  unfold ceilDiv
  have h1 := Nat.div_add_mod (l + m - 1) m
  have h2 := Nat.mod_lt (l + m - 1) hm
  have h3 : (l + m - 1) / m * m = m * ((l + m - 1) / m) := Nat.mul_comm _ _
  have h4 : ((l + m - 1) / m - 1) * m = (l + m - 1) / m * m - m := by rw [Nat.sub_mul, Nat.one_mul]
  omega

end Sys2Proof.Machine
end

