-- ==== Sys2Proof/Laws/Chain.lean ====
section
/-! SUPPORT. The writes of BUILD: where they go, that they do not meet, and what memory holds after them. -/

namespace Sys2Proof.Machine

open Sys2Proof

/-- The whole array lies in the address space: the bound every address computation of BUILD rests on. -/
theorem descAddr_bound {desc n count : Nat} (h : desc + 16 * count ≤ 2 ^ 32) (hn : n < count) :
    descAddr desc n + 16 ≤ 2 ^ 32 := by
  unfold descAddr descBytes
  omega

/-- Each write of a chain is one of the four words of one of its descriptors, at an address below 2^32 and inside the
array. -/
theorem mem_chainWrites {y : DescLayout} {buf l m desc : Nat} {w : Word × Word}
    (h : w ∈ chainWrites y buf l m desc) :
    ∃ n, n < ceilDiv l m ∧ w ∈ descWrites y buf l m desc (ceilDiv l m) n := by
  simpa [chainWrites, List.mem_flatMap, List.mem_range] using h

theorem descWrites_addr {y : DescLayout} {buf l m desc count n : Nat} (hb : desc + 16 * count ≤ 2 ^ 32) (hn : n < count)
    {w : Word × Word} (h : w ∈ descWrites y buf l m desc count n) :
    ∃ q, q < 4 ∧ w.1.toNat = desc + 16 * n + 4 * q := by
  simp only [descWrites, descAddr, descBytes, List.mem_cons, List.not_mem_nil, or_false] at h
  have ofNat : ∀ q, q < 4 → (BitVec.ofNat 32 (desc + 16 * n + 4 * q)).toNat = desc + 16 * n + 4 * q := fun q hq => by
    rw [BitVec.toNat_ofNat, Nat.mod_eq_of_lt (by omega)]
  rcases h with rfl | rfl | rfl | rfl
  · exact ⟨0, by omega, ofNat 0 (by omega)⟩
  · exact ⟨1, by omega, ofNat 1 (by omega)⟩
  · exact ⟨2, by omega, ofNat 2 (by omega)⟩
  · exact ⟨3, by omega, ofNat 3 (by omega)⟩

/-- The writes of a chain go to rising addresses, each four bytes past the one before. -/
theorem chainWrites_separated {y : DescLayout} {buf l m desc : Nat} (hb : desc + 16 * ceilDiv l m ≤ 2 ^ 32) :
    (chainWrites y buf l m desc).Pairwise fun w w' => w.1.toNat + 4 ≤ w'.1.toNat := by
  unfold chainWrites
  generalize ceilDiv l m = count at hb
  rw [List.pairwise_flatMap]
  refine ⟨fun n hn => ?_, ?_⟩
  · have hn := List.mem_range.1 hn
    simp only [descWrites, descAddr, descBytes, List.pairwise_cons, List.mem_cons, List.not_mem_nil, or_false,
      forall_eq_or_imp, forall_eq, BitVec.toNat_ofNat, List.Pairwise.nil, and_true, false_imp_iff, implies_true]
    omega
  · refine List.Pairwise.imp_of_mem ?_ (List.pairwise_lt_range (n := count))
    intro n n' hn hn' hlt w hw w' hw'
    obtain ⟨q, hq, e⟩ := descWrites_addr hb (List.mem_range.1 hn) hw
    obtain ⟨q', hq', e'⟩ := descWrites_addr hb (List.mem_range.1 hn') hw'
    omega

/-- Each word of each descriptor is read back from memory after the writes. -/
theorem get_chainWrites_at (mem : Memory) {y : DescLayout} {buf l m desc : Nat}
    (hb : desc + 16 * ceilDiv l m ≤ 2 ^ 32) {n : Nat} (hn : n < ceilDiv l m) {w : Word × Word}
    (hw : w ∈ descWrites y buf l m desc (ceilDiv l m) n) {j : Nat} (hj : j < 4) :
    (mem.writeAll (chainWrites y buf l m desc)).get (w.1.toNat + j) = some (w.2.extractLsb' (8 * j) 8) :=
  Memory.get_writeAll_at mem _ (chainWrites_separated hb)
    (by simp only [chainWrites, List.mem_flatMap, List.mem_range]; exact ⟨n, hn, hw⟩) hj

/-- Every byte outside the array reads as before. -/
theorem get_chainWrites_off (mem : Memory) {y : DescLayout} {buf l m desc : Nat}
    (hb : desc + 16 * ceilDiv l m ≤ 2 ^ 32) {a : Nat} (ha : a < desc ∨ desc + 16 * ceilDiv l m ≤ a) :
    (mem.writeAll (chainWrites y buf l m desc)).get a = mem.get a := by
  apply Memory.get_writeAll_off
  intro w hw
  obtain ⟨n, hn, hw⟩ := mem_chainWrites hw
  obtain ⟨q, hq, e⟩ := descWrites_addr hb hn hw
  omega

/-- The writes of a chain keep memory canonical. -/
theorem wf_chainWrites {mem : Memory} (hm : mem.wf) {y : DescLayout} {buf l m desc : Nat}
    (hb : desc + 16 * ceilDiv l m ≤ 2 ^ 32) : (mem.writeAll (chainWrites y buf l m desc)).wf := by
  apply Memory.wf_writeAll hm
  intro w hw
  obtain ⟨n, hn, hw⟩ := mem_chainWrites hw
  obtain ⟨q, hq, e⟩ := descWrites_addr hb hn hw
  omega

/-- A chain inside the address space has fewer than 2^32 descriptors, so its count is stored whole. -/
theorem ceilDiv_toNat {l m desc : Nat} (hb : desc + 16 * ceilDiv l m ≤ 2 ^ 32) :
    (BitVec.ofNat 32 (ceilDiv l m)).toNat = ceilDiv l m := by
  rw [BitVec.toNat_ofNat, Nat.mod_eq_of_lt (by omega)]

end Sys2Proof.Machine
end

