-- ==== Sys2Proof/Laws/Decode.lean ====
section
/-! SUPPORT. The byte order, the command word's fields and the request parser, each read back from what it was built
from. -/

namespace Sys2Proof

/-! ## Byte order -/

/-- Bit `i` of the word of four bytes is a bit of byte `i / 8`. -/
theorem leWord_getLsbD (b0 b1 b2 b3 : Byte) (i : Nat) :
    (leWord b0 b1 b2 b3).getLsbD i =
      if i < 8 then b0.getLsbD i else if i < 16 then b1.getLsbD (i - 8) else if i < 24 then b2.getLsbD (i - 16)
      else if i < 32 then b3.getLsbD (i - 24) else false := by
  unfold leWord
  simp only [BitVec.getLsbD_or, BitVec.getLsbD_shiftLeft, BitVec.getLsbD_setWidth]
  by_cases h1 : i < 8
  · simp [h1, show i < 16 by omega, show i < 24 by omega, show i < 32 by omega]
  by_cases h2 : i < 16
  · simp [h1, h2, show i < 24 by omega, show i < 32 by omega, BitVec.getLsbD_of_ge b0 i (by omega), show i - 8 < 32 by omega]
  by_cases h3 : i < 24
  · simp [h1, h2, h3, show i < 32 by omega, BitVec.getLsbD_of_ge b0 i (by omega),
      BitVec.getLsbD_of_ge b1 (i - 8) (by omega), show i - 16 < 32 by omega]
  by_cases h4 : i < 32
  · simp [h1, h2, h3, h4, BitVec.getLsbD_of_ge b0 i (by omega),
      BitVec.getLsbD_of_ge b1 (i - 8) (by omega), BitVec.getLsbD_of_ge b2 (i - 16) (by omega), show i - 24 < 32 by omega]
  · simp [h1, h2, h3, h4]

/-- The bytes of a word, put together again, are the word. -/
theorem leWord_of_bytes (v : Word) :
    leWord (v.extractLsb' 0 8) (v.extractLsb' 8 8) (v.extractLsb' 16 8) (v.extractLsb' 24 8) = v := by
  apply BitVec.eq_of_getLsbD_eq
  intro i hi
  simp only [leWord_getLsbD, BitVec.getLsbD_extractLsb', hi, if_true]
  split
  · simp only [Nat.zero_add, *, decide_true, Bool.true_and]
  · split
    · simp only [show i - 8 < 8 by omega, decide_true, Bool.true_and, show 8 + (i - 8) = i by omega]
    · split
      · simp only [show i - 16 < 8 by omega, decide_true, Bool.true_and, show 16 + (i - 16) = i by omega]
      · simp only [show i - 24 < 8 by omega, decide_true, Bool.true_and, show 24 + (i - 24) = i by omega]

/-- The word of four bytes, taken apart again, is the bytes. -/
theorem leBytes_leWord (b0 b1 b2 b3 : Byte) : leBytes (leWord b0 b1 b2 b3) = [b0, b1, b2, b3] := by
  have key : ∀ k < 4, (leWord b0 b1 b2 b3).extractLsb' (8 * k) 8 = [b0, b1, b2, b3].getD k 0 := by
    intro k hk
    apply BitVec.eq_of_getLsbD_eq
    intro i hi
    rw [BitVec.getLsbD_extractLsb', leWord_getLsbD]
    have h : k = 0 ∨ k = 1 ∨ k = 2 ∨ k = 3 := by omega
    rcases h with rfl | rfl | rfl | rfl
    · simp [hi]
    · simp [hi, show ¬ 8 + i < 8 by omega, show 8 + i < 16 by omega]
    · simp [hi, show ¬ 16 + i < 8 by omega, show ¬ 16 + i < 16 by omega, show 16 + i < 24 by omega]
    · simp [hi, show ¬ 24 + i < 8 by omega, show ¬ 24 + i < 16 by omega, show ¬ 24 + i < 24 by omega,
        show 24 + i < 32 by omega]
  have h0 := key 0 (by omega)
  have h1 := key 1 (by omega)
  have h2 := key 2 (by omega)
  have h3 := key 3 (by omega)
  simp only [Nat.mul_zero, Nat.mul_one, List.getD_cons_zero, List.getD_cons_succ] at h0 h1 h2 h3
  unfold leBytes
  rw [h0, h1]
  exact congrArg₂ (fun x y => [b0, b1, x, y]) h2 h3

@[simp] theorem leBytes_length (v : Word) : (leBytes v).length = 4 := rfl

@[simp] theorem buildBody_length (buf l m desc : Word) : (buildBody buf l m desc).length = 16 := rfl

theorem wordAt_buildBody (buf l m desc : Word) :
    wordAt (buildBody buf l m desc) 0 = buf ∧ wordAt (buildBody buf l m desc) 4 = l ∧
      wordAt (buildBody buf l m desc) 8 = m ∧ wordAt (buildBody buf l m desc) 12 = desc :=
  ⟨leWord_of_bytes buf, leWord_of_bytes l, leWord_of_bytes m, leWord_of_bytes desc⟩

/-- Sixteen bytes are the four words they hold. -/
theorem buildBody_wordAt {bs : List Byte} (h : bs.length = 16) :
    buildBody (wordAt bs 0) (wordAt bs 4) (wordAt bs 8) (wordAt bs 12) = bs := by
  match bs, h with
  | [a0, a1, a2, a3, a4, a5, a6, a7, a8, a9, a10, a11, a12, a13, a14, a15], _ =>
    simp [buildBody, wordAt, leBytes_leWord]

/-! ## The command word's fields (R90) -/

theorem dirBit_getLsbD (d : Bool) (i : Nat) :
    (if d = true then (0x100 : Word) else (0 : Word)).getLsbD i = (d && decide (i = 8)) := by
  cases d
  · simp
  · rw [if_pos rfl, show (0x100 : Word) = BitVec.twoPow 32 8 by decide, BitVec.getLsbD_twoPow]
    by_cases h : i = 8
    · subst h; decide
    · simp only [h, show ¬ 8 = i from fun e => h e.symm, decide_false, Bool.and_false]

theorem mkCw_getLsbD (b : Byte) (d : Bool) (n : Nat) (i : Nat) :
    (mkCw b d n).getLsbD i =
      if i < 8 then b.getLsbD i else if i = 8 then d else if i < 16 then false
      else if i < 32 then (BitVec.ofNat 32 n).getLsbD (i - 16) else false := by
  unfold mkCw
  simp only [BitVec.getLsbD_or, BitVec.getLsbD_shiftLeft, BitVec.getLsbD_setWidth, dirBit_getLsbD]
  by_cases h1 : i < 8
  · simp only [h1, show i < 32 by omega, show i < 16 by omega, show ¬ i = 8 by omega, decide_true, decide_false,
      Bool.true_and, Bool.and_false, Bool.or_false, Bool.not_true, Bool.false_and, if_true]
  · rw [BitVec.getLsbD_of_ge b i (by omega)]
    by_cases h2 : i = 8
    · subst h2; simp
    by_cases h3 : i < 16
    · simp [h1, h2, h3]
    by_cases h4 : i < 32
    · simp only [h1, h2, h3, h4, decide_true, decide_false, Bool.not_false, Bool.true_and, Bool.and_false, Bool.false_or,
        if_true, if_false]
    · simp [h1, h2, h3, h4]

@[simp] theorem cwOpsel_mkCw (b : Byte) (d : Bool) (n : Nat) : cwOpsel (mkCw b d n) = b := by
  apply BitVec.eq_of_getLsbD_eq
  intro i hi
  simp only [cwOpsel, BitVec.getLsbD_extractLsb', mkCw_getLsbD, hi, decide_true, Bool.true_and, Nat.zero_add, if_true]

@[simp] theorem cwDir_mkCw (b : Byte) (d : Bool) (n : Nat) : cwDir (mkCw b d n) = d := mkCw_getLsbD b d n 8

@[simp] theorem cwRsv_mkCw (b : Byte) (d : Bool) (n : Nat) : cwRsv (mkCw b d n) = 0 := by
  apply BitVec.eq_of_getLsbD_eq
  intro i hi
  simp only [cwRsv, BitVec.getLsbD_extractLsb', mkCw_getLsbD]
  simp [show ¬ 9 + i < 8 by omega, show ¬ 9 + i = 8 by omega, show 9 + i < 16 by omega]

theorem cwLen_mkCw (b : Byte) (d : Bool) {n : Nat} (h : n < 65536) : cwLen (mkCw b d n) = n := by
  have : (mkCw b d n).extractLsb' 16 16 = BitVec.ofNat 16 n := by
    apply BitVec.eq_of_getLsbD_eq
    intro i hi
    simp only [BitVec.getLsbD_extractLsb', mkCw_getLsbD, hi, decide_true, Bool.true_and]
    simp only [show ¬ 16 + i < 8 by omega, show ¬ 16 + i = 8 by omega, show ¬ 16 + i < 16 by omega,
      show 16 + i < 32 by omega, if_true, if_false, Nat.add_sub_cancel_left, BitVec.getLsbD_ofNat]
    simp [hi, show i < 32 by omega]
  simp [cwLen, this, BitVec.toNat_ofNat, Nat.mod_eq_of_lt h]

/-- A command word is its four fields. -/
theorem mkCw_fields {cw : Word} (h : cwRsv cw = 0) : mkCw (cwOpsel cw) (cwDir cw) (cwLen cw) = cw := by
  apply BitVec.eq_of_getLsbD_eq
  intro i hi
  rw [mkCw_getLsbD]
  by_cases h1 : i < 8
  · simp only [h1, cwOpsel, BitVec.getLsbD_extractLsb', decide_true, Bool.true_and, Nat.zero_add, if_true]
  by_cases h2 : i = 8
  · simp [h2, cwDir]
  by_cases h3 : i < 16
  · have := congrArg (fun v => v.getLsbD (i - 9)) h
    simp only [cwRsv, BitVec.getLsbD_extractLsb'] at this
    simp [show i - 9 < 7 by omega, show 9 + (i - 9) = i by omega] at this
    simp [h1, h2, h3, this]
  · simp only [h1, h2, h3, hi, if_true, if_false, BitVec.getLsbD_ofNat, cwLen]
    have : ((cw.extractLsb' 16 16).toNat).testBit (i - 16) = (cw.extractLsb' 16 16).getLsbD (i - 16) := rfl
    rw [this, BitVec.getLsbD_extractLsb']
    simp [show i - 16 < 32 by omega, show i - 16 < 16 by omega, show 16 + (i - 16) = i by omega]

theorem cwLen_le (cw : Word) : cwLen cw ≤ 65535 := by
  have := (cw.extractLsb' 16 16).isLt
  unfold cwLen
  omega

/-! ## The parser -/

/-- A command word, its whole body and anything after it are read back as the request and the rest. -/
theorem parseRequest_append (u : UnitId) (cw : Word) (body rest : List Byte) (h : body.length = bodyLength u cw) :
    parseRequest u (leBytes cw ++ body ++ rest) = .ok (requestOf u cw body, rest) := by
  have hlen : ¬ (body ++ rest).length < bodyLength u cw := by simp; omega
  simp only [leBytes, List.cons_append, List.nil_append, parseRequest, leWord_of_bytes]
  rw [if_neg hlen, ← h]
  simp

/-- What the parser read was there: the bytes are the command word, the body it took, and the rest. -/
theorem parseRequest_ok {u : UnitId} {bs rest : List Byte} {r : Request} (h : parseRequest u bs = .ok (r, rest)) :
    ∃ body, body.length = bodyLength u r.cw ∧ r = requestOf u r.cw body ∧ bs = leBytes r.cw ++ body ++ rest := by
  match bs with
  | b0 :: b1 :: b2 :: b3 :: tl =>
    simp only [parseRequest] at h
    split at h
    · cases h
    · next hlen =>
      injection h with h
      injection h with hr hrest
      have hcw : r.cw = leWord b0 b1 b2 b3 := by
        rw [← hr]; unfold requestOf; split <;> rfl
      refine ⟨tl.take (bodyLength u (leWord b0 b1 b2 b3)), ?_, ?_, ?_⟩
      · rw [hcw, List.length_take]; omega
      · rw [hcw]; exact hr.symm
      · rw [hcw, leBytes_leWord, ← hrest]; simp
  | [] => simp [parseRequest] at h
  | [_] => simp [parseRequest] at h
  | [_, _] => simp [parseRequest] at h
  | [_, _, _] => simp [parseRequest] at h

@[simp] theorem requestOf_cw (u : UnitId) (cw : Word) (body : List Byte) : (requestOf u cw body).cw = cw := by
  unfold requestOf; split <;> rfl

/-- A parsed request has the data bytes its LEN counts (R33). -/
theorem parseRequest_data {u : UnitId} {bs rest : List Byte} {r : Request} (h : parseRequest u bs = .ok (r, rest)) :
    r.data.length = cwLen r.cw := by
  obtain ⟨body, hlen, hr, -⟩ := parseRequest_ok h
  rw [hr]
  unfold requestOf
  split
  · next hb =>
    simp only [List.length_nil]
    simp only [cwIsBuild, Bool.and_eq_true, Bool.not_eq_true', beq_iff_eq] at hb
    have := hb.1
    simp only [cwMalformed, hb.2, Bool.or_eq_false_iff] at this
    have h5 := this.2
    simp [opIsDb] at h5
    simpa using h5.symm
  · next hb => simpa [bodyLength, hb] using hlen

/-! ## The opcode table -/

@[simp] theorem opOfOpsel_opselOfOp (op : Op) : opOfOpsel (opselOfOp op) = some op := by cases op <;> decide

theorem opselOfOp_of_some {b : Byte} {op : Op} (h : opOfOpsel b = some op) : opselOfOp op = b := by
  unfold opOfOpsel at h
  repeat' split at h
  all_goals first
    | (injection h with h; subst h; simp_all [opselOfOp])
    | cases h

end Sys2Proof
end

