-- ==== Sys2Proof/Laws/Exec.lean ====
section
/-! SUPPORT. What exec and step can do, said once: an instruction is answered by the framer, or is an operation of one
builder, or is a malformed word at a builder; a step takes an input, serves an instance or does nothing. -/

namespace Sys2Proof.Machine

open Sys2Proof

/-! ## The framer -/

/-- The response of an instruction that the framer answers, from the parameters and the instruction alone (R32). -/
def framerRsp (ms : EccMasks) : Instr → Rsp
  | .ecc h0 h1 h2 => { Rsp.empty with value := (ecc ms h0 h1 h2).setWidth 16, count := 1, bytes := [ecc ms h0 h1 h2] }
  | .crc data => { Rsp.empty with value := crc16 data, count := 2, bytes := crcTrailer (crc16 data) }
  | .short data =>
    match data with
    | [d0] => shortRsp (short1 ms d0)
    | [d0, d1] => shortRsp (short2 ms d0 d1)
    | _ => Rsp.faulted .shortLen
  | .long data => longRsp ms data
  | .frame data => if data.length = 0 then Rsp.faulted .frameEmpty else frameRsp ms data
  | .framew data =>
    if data.length = 0 then Rsp.faulted .frameEmpty
    else if (framePacket ms data).length > txbufBytes then Rsp.faulted .txbufOverflow
    else framewRsp ms data
  | .sendcmd data =>
    if data.length = 0 then Rsp.faulted .frameEmpty
    else if (framePacket ms data).length > txbufBytes then Rsp.faulted .txbufOverflow
    else framewRsp ms data
  | .pkt05 d0 => shortRsp (short1 ms d0)
  | .pkt15 d0 d1 => shortRsp (short2 ms d0 d1)
  | .pkt39 payload => longRsp ms payload
  | .reserved _ _ _ => Rsp.faulted .malformed
  | .buildTo _ _ _ _ _ => Rsp.empty
  | .buildFrom _ _ _ _ _ => Rsp.empty
  | .buildW _ _ _ _ _ => Rsp.empty
  | .buildR _ _ _ _ _ => Rsp.empty
  | .release _ => Rsp.empty
  | .evEnabled _ => Rsp.empty
  | .evComplete _ => Rsp.empty

/-- Everything an instruction that the framer answers does. -/
theorem exec_framer {i : Instr} (h : answeredByFramer i = true) (s : State) :
    exec i s = .next (s.respond (framerRsp s.cfg.eccMasks i)) := by
  cases i <;> simp only [answeredByFramer, Bool.false_eq_true] at h
  case short data =>
    match data with
    | [] => rfl
    | [_] => rfl
    | [_, _] => rfl
    | _ :: _ :: _ :: _ => rfl
  case frame data => simp only [exec, execFrame, framerRsp]; split <;> rfl
  case framew data => simp only [exec, execFramew, framewOperation, framerRsp]; split <;> (try split) <;> rfl
  case sendcmd data => simp only [exec, execSendcmd, framewOperation, framerRsp]; split <;> (try split) <;> rfl
  case reserved u cw data =>
    have : u = .fr0 := by simpa using h
    subst this
    rfl
  all_goals rfl

/-! ## The builders -/

/-- The operation of a builder instruction, from the parameters and the instruction alone. -/
def builderOp (c : Config) : Instr → DbUnit → Except Status DbEffect
  | .buildTo k buf l m desc => buildOp c k .toDevice buf l m desc
  | .buildFrom k buf l m desc => buildOp c k .fromDevice buf l m desc
  | .buildW k buf l m desc => buildOp c k .toDevice buf l m desc
  | .buildR k buf l m desc => buildOp c k .fromDevice buf l m desc
  | .release _ => releaseOp
  | .evEnabled _ => enabledOp
  | .evComplete _ => completeOp
  | .ecc _ _ _ => fun _ => .error .malformed
  | .crc _ => fun _ => .error .malformed
  | .short _ => fun _ => .error .malformed
  | .long _ => fun _ => .error .malformed
  | .frame _ => fun _ => .error .malformed
  | .framew _ => fun _ => .error .malformed
  | .sendcmd _ => fun _ => .error .malformed
  | .pkt05 _ => fun _ => .error .malformed
  | .pkt15 _ _ => fun _ => .error .malformed
  | .pkt39 _ => fun _ => .error .malformed
  | .reserved _ _ _ => fun _ => .error .malformed

/-- A builder instruction is the shared operation over its own. -/
theorem exec_builder {i : Instr} {k : DbId} (h : builderOf i = some k) (s : State) :
    exec i s = dbOperation k (builderOp s.cfg i) s := by
  cases i <;> simp only [builderOf, reduceCtorEq, Option.some.injEq] at h <;> subst h <;> rfl

/-- A form of BUILD is the shared operation over BUILD. -/
theorem exec_buildForm {dir : Dir} {k : DbId} {buf l m desc : Word} {i : Instr} (h : i ∈ buildForms dir k buf l m desc)
    (s : State) : builderOf i = some k ∧ exec i s = dbOperation k (buildOp s.cfg k dir buf l m desc) s := by
  cases dir <;> simp only [buildForms, List.mem_cons, List.not_mem_nil, or_false] at h <;>
    rcases h with rfl | rfl <;> exact ⟨rfl, rfl⟩

/-- An effect of a builder instruction is that of an admitted BUILD, of RELEASE, or of a notification. -/
theorem builderOp_ok {c : Config} {i : Instr} {k : DbId} {d : DbUnit} {e : DbEffect} (hk : builderOf i = some k)
    (h : builderOp c i d = .ok e) :
    (∃ dir buf l m desc, i ∈ buildForms dir k buf l m desc ∧ d.chain.state = .empty ∧
        checkOperands (sizeMax c k) buf.toNat l.toNat m.toNat desc.toNat = none ∧
        e = buildEffect c.descLayout dir buf l m desc) ∨
      (i = .release k ∧ (d.chain.state = .built ∨ d.chain.state = .done) ∧
        e = { chain := .empty, count := d.chain.count, writes := [], events := [.free d.chain.base] }) ∨
      (i = .evEnabled k ∧ d.chain.state = .built ∧
        e = { chain := { d.chain with state := .hw }, count := 0, writes := [], events := [] }) ∨
      (i = .evComplete k ∧ d.chain.state = .hw ∧
        e = { chain := { d.chain with state := .done }, count := 0, writes := [], events := [] }) := by
  have build : ∀ (dir : Dir) (k' : DbId) (buf l m desc : Word), buildOp c k' dir buf l m desc d = .ok e →
      i ∈ buildForms dir k' buf l m desc → k' = k →
      ∃ dir buf l m desc, i ∈ buildForms dir k buf l m desc ∧ d.chain.state = .empty ∧
        checkOperands (sizeMax c k) buf.toNat l.toNat m.toNat desc.toNat = none ∧
        e = buildEffect c.descLayout dir buf l m desc := by
    intro dir k' buf l m desc hb hi hkk
    subst hkk
    rcases buildOp_cases c k' dir buf l m desc d with ⟨-, he⟩ | ⟨f, -, -, he⟩ | ⟨hs, hc, he⟩
    · rw [he] at hb; cases hb
    · rw [he] at hb; cases hb
    · rw [he] at hb
      injection hb with hb
      exact ⟨dir, buf, l, m, desc, hi, hs, hc, hb.symm⟩
  cases i <;> simp only [builderOf, reduceCtorEq, Option.some.injEq] at hk
  case buildTo => exact .inl (build _ _ _ _ _ _ h (by simp [buildForms]) hk)
  case buildFrom => exact .inl (build _ _ _ _ _ _ h (by simp [buildForms]) hk)
  case buildW => exact .inl (build _ _ _ _ _ _ h (by simp [buildForms]) hk)
  case buildR => exact .inl (build _ _ _ _ _ _ h (by simp [buildForms]) hk)
  case release =>
    subst hk
    simp only [builderOp, releaseOp] at h
    split at h <;> cases h <;> simp_all
  case evEnabled =>
    subst hk
    simp only [builderOp, enabledOp] at h
    split at h
    · cases h
    · next hs => cases h; exact .inr (.inr (.inl ⟨rfl, by simpa using hs, rfl⟩))
  case evComplete =>
    subst hk
    simp only [builderOp, completeOp] at h
    split at h
    · cases h
    · next hs => cases h; exact .inr (.inr (.inr ⟨rfl, by simpa using hs, rfl⟩))

/-- A fault of a builder instruction is one of a builder's own faults (R250). -/
theorem builderOp_error {c : Config} {i : Instr} {k : DbId} {d : DbUnit} {f : Status} (hk : builderOf i = some k)
    (h : builderOp c i d = .error f) : f ≠ .sticky ∧ statusCode f ∈ dbFaultCodes := by
  have build : ∀ (dir : Dir) (k' : DbId) (buf l m desc : Word), buildOp c k' dir buf l m desc d = .error f →
      f ≠ .sticky ∧ statusCode f ∈ dbFaultCodes := by
    intro dir k' buf l m desc hb
    rcases buildOp_cases c k' dir buf l m desc d with ⟨-, he⟩ | ⟨f', -, hf, he⟩ | ⟨-, -, he⟩
    · rw [he] at hb; cases hb; decide
    · rw [he] at hb
      cases hb
      rcases checkOperands_some hf with rfl | rfl | rfl | rfl | rfl <;> decide
    · rw [he] at hb; cases hb
  cases i <;> simp only [builderOf, reduceCtorEq, Option.some.injEq] at hk
  case buildTo => exact build _ _ _ _ _ _ h
  case buildFrom => exact build _ _ _ _ _ _ h
  case buildW => exact build _ _ _ _ _ _ h
  case buildR => exact build _ _ _ _ _ _ h
  case release =>
    simp only [builderOp, releaseOp] at h
    split at h <;> cases h <;> decide
  case evEnabled =>
    simp only [builderOp, enabledOp] at h
    split at h <;> cases h
    decide
  case evComplete =>
    simp only [builderOp, completeOp] at h
    split at h <;> cases h
    decide

/-! ## exec -/

/-- Every instruction is answered by the framer, is an operation of one builder, or is a malformed word at a builder. -/
theorem instr_cases (i : Instr) :
    answeredByFramer i = true ∨ (∃ k, builderOf i = some k) ∨ (∃ k cw data, i = .reserved (.db k) cw data) := by
  cases i
  case reserved u cw data =>
    cases u with
    | fr0 => exact .inl rfl
    | db k => exact .inr (.inr ⟨k, cw, data, rfl⟩)
  all_goals first | exact .inl rfl | exact .inr (.inl ⟨_, rfl⟩)

/-- Everything exec can have done when it answers a next state. -/
theorem exec_next {i : Instr} {s t : State} (h : exec i s = .next t) :
    (answeredByFramer i = true ∧ t = s.respond (framerRsp s.cfg.eccMasks i)) ∨
      (∃ k cw data, i = .reserved (.db k) cw data ∧ s.cfg.hasDb k = true ∧
        t = s.setDb k { s.db k with rsp := Rsp.faulted .malformed }) ∨
      (∃ k, builderOf i = some k ∧ s.cfg.hasDb k = true ∧
        (((s.db k).faulted = true ∧ t = s.dbFault k .sticky) ∨
          (∃ f, (s.db k).faulted = false ∧ builderOp s.cfg i (s.db k) = .error f ∧ t = s.dbFault k f) ∨
          (∃ e, (s.db k).faulted = false ∧ builderOp s.cfg i (s.db k) = .ok e ∧ t = s.dbCommit k e))) := by
  rcases instr_cases i with hf | ⟨k, hk⟩ | ⟨k, cw, data, rfl⟩
  · rw [exec_framer hf] at h
    injection h with h
    exact .inl ⟨hf, h.symm⟩
  · rw [exec_builder hk] at h
    exact .inr (.inr ⟨k, hk, dbOperation_next h⟩)
  · have he : exec (.reserved (.db k) cw data) s =
        if s.cfg.hasDb k then .next (s.statusFault (.db k) .malformed) else .fault (.noSuchUnit (.db k)) := rfl
    by_cases hk : s.cfg.hasDb k = true
    · rw [he, if_pos hk] at h
      injection h with h
      exact .inr (.inl ⟨k, cw, data, rfl, hk, h.symm⟩)
    · rw [he, if_neg hk] at h
      cases h

theorem exec_cfg {i : Instr} {s t : State} (h : exec i s = .next t) : t.cfg = s.cfg := by
  rcases exec_next h with ⟨-, rfl⟩ | ⟨k, _, _, -, -, rfl⟩ | ⟨k, -, -, ⟨-, rfl⟩ | ⟨f, -, -, rfl⟩ | ⟨e, -, -, rfl⟩⟩ <;>
    simp [State.respond_eq]

theorem exec_inputs {i : Instr} {s t : State} (h : exec i s = .next t) : t.inputs = s.inputs := by
  rcases exec_next h with ⟨-, rfl⟩ | ⟨k, _, _, -, -, rfl⟩ | ⟨k, -, -, ⟨-, rfl⟩ | ⟨f, -, -, rfl⟩ | ⟨e, -, -, rfl⟩⟩ <;>
    simp [State.respond_eq]

/-- A builder other than the one an instruction is addressed to keeps its registers. -/
theorem exec_db_ne {i : Instr} {s t : State} {j : DbId} (h : exec i s = .next t)
    (hj : builderOf i ≠ some j ∧ ∀ cw data, i ≠ .reserved (.db j) cw data) : t.db j = s.db j := by
  rcases exec_next h with ⟨-, rfl⟩ | ⟨k, cw, data, rfl, -, rfl⟩ | ⟨k, hk, -, ⟨-, rfl⟩ | ⟨f, -, -, rfl⟩ | ⟨e, -, -, rfl⟩⟩
  · simp [State.respond_eq]
  · exact State.setDb_db_ne _ _ fun e => hj.2 cw data (by rw [e])
  · exact State.dbFault_db_ne _ _ fun e => hj.1 (by rw [e, hk])
  · exact State.dbFault_db_ne _ _ fun e => hj.1 (by rw [e, hk])
  · exact State.dbCommit_db_ne _ _ fun e => hj.1 (by rw [e, hk])

/-! ## step -/

/-- Everything serving an instance can have done. -/
theorem serve_next {u : UnitId} {s t : State} (h : serve u s = .next t) :
    (∃ r, (s.port u).latch = some r ∧ exec (decode u r) (s.consume u) = .next t) ∨
      ((s.port u).latch = none ∧ t = s.latchNext u) := by
  unfold serve at h
  split at h
  · next r hr => exact .inl ⟨r, hr, h⟩
  · next hr => injection h with h; exact .inr ⟨hr, h.symm⟩

/-- Everything a step that answers a next state can have done. -/
theorem step_next {s t : State} (h : step s = .next t) :
    (∃ u bytes rest, s.inputs = .send u bytes :: rest ∧ s.cfg.hasUnit u = true ∧
        t = ({ s with inputs := rest } : State).receive u bytes) ∨
      (∃ u rest, s.inputs = .perform u :: rest ∧ s.cfg.hasUnit u = true ∧
        serve u { s with inputs := rest } = .next t) ∨
      (∃ u rest, s.inputs = .reset u :: rest ∧ s.cfg.hasUnit u = true ∧
        t = ({ s with inputs := rest } : State).resetUnit u) ∨
      (∃ a b rest, s.inputs = .extWrite a b :: rest ∧ t = ({ s with inputs := rest } : State).extWrite a b) ∨
      (∃ u, s.inputs = [] ∧ s.nextServed = some u ∧ serve u s = .next t) ∨
      (s.inputs = [] ∧ s.nextServed = none ∧ t = s) := by
  unfold step at h
  split at h
  · next i rest hin =>
    cases i with
    | send u bytes =>
      simp only [takeInput] at h
      split at h
      · next hu => injection h with h; exact .inl ⟨u, bytes, rest, hin, hu, h.symm⟩
      · cases h
    | perform u =>
      simp only [takeInput] at h
      split at h
      · next hu => exact .inr (.inl ⟨u, rest, hin, hu, h⟩)
      · cases h
    | reset u =>
      simp only [takeInput] at h
      split at h
      · next hu => injection h with h; exact .inr (.inr (.inl ⟨u, rest, hin, hu, h.symm⟩))
      · cases h
    | extWrite a b =>
      simp only [takeInput] at h
      injection h with h
      exact .inr (.inr (.inr (.inl ⟨a, b, rest, hin, h.symm⟩)))
  · next hin =>
    split at h
    · next u hu => exact .inr (.inr (.inr (.inr (.inl ⟨u, hin, hu, h⟩))))
    · next hu => injection h with h; exact .inr (.inr (.inr (.inr (.inr ⟨hin, hu, h.symm⟩))))

/-- Admitting a request changes only its instance's port. -/
theorem State.latchNext_cases (s : State) (u : UnitId) :
    s.latchNext u = s ∨ ∃ r rest, parseRequest u (s.port u).wire = .ok (r, rest) ∧
      s.latchNext u = s.setPort u { latch := some r, wire := rest } := by
  unfold State.latchNext
  split
  · next r rest h => exact .inr ⟨r, rest, h, rfl⟩
  · exact .inl rfl

end Sys2Proof.Machine
end

