-- ==== Sys2Proof/Laws/Framing.lean ====
section
/-! SUPPORT. The bits of the header ECC, the linearity of the CRC register, the shape of packets, the bytes of the
transmit-buffer words and the bits of the descriptor flags. -/

namespace Sys2Proof.Machine

open Sys2Proof

/-! ## Header ECC -/

theorem parityBelow_xor (x y : BitVec 24) (n : Nat) :
    parityBelow (x ^^^ y) n = (parityBelow x n ^^ parityBelow y n) := by
  induction n with
  | zero => rfl
  | succ n ih =>
    simp only [parityBelow, ih, BitVec.getLsbD_xor]
    cases parityBelow x n <;> cases parityBelow y n <;> cases x.getLsbD n <;> cases y.getLsbD n <;> rfl

/-- Parity is linear. -/
theorem parity_xor (x y : BitVec 24) : parity (x ^^^ y) = (parity x ^^ parity y) := parityBelow_xor x y 24

/-- Parity is whether the number of set bits is odd. -/
theorem parityBelow_eq_count (v : BitVec 24) (n : Nat) :
    parityBelow v n = decide ((List.range n).countP (fun j => v.getLsbD j) % 2 = 1) := by
  induction n with
  | zero => rfl
  | succ n ih =>
    simp only [parityBelow, ih, List.range_succ, List.countP_append, List.countP_singleton]
    have := Nat.mod_two_eq_zero_or_one (List.countP (fun j => v.getLsbD j) (List.range n))
    cases v.getLsbD n <;> rcases this with h | h <;> simp [h, Nat.add_mod]

/-- The eight bits of an ECC byte. -/
theorem eccWord_bits (ms : EccMasks) (d : BitVec 24) :
    (eccWord ms d).getLsbD 0 = parity (d &&& ms.p0) ∧ (eccWord ms d).getLsbD 1 = parity (d &&& ms.p1) ∧
      (eccWord ms d).getLsbD 2 = parity (d &&& ms.p2) ∧ (eccWord ms d).getLsbD 3 = parity (d &&& ms.p3) ∧
      (eccWord ms d).getLsbD 4 = parity (d &&& ms.p4) ∧ (eccWord ms d).getLsbD 5 = parity (d &&& ms.p5) ∧
      (eccWord ms d).getLsbD 6 = false ∧ (eccWord ms d).getLsbD 7 = false := by
  unfold eccWord parityBit
  cases parity (d &&& ms.p0) <;> cases parity (d &&& ms.p1) <;> cases parity (d &&& ms.p2) <;>
    cases parity (d &&& ms.p3) <;> cases parity (d &&& ms.p4) <;> cases parity (d &&& ms.p5) <;> decide

/-- The 24 bits of a header word (R120). -/
theorem headerWord_bit (h0 h1 h2 : Byte) (j : Nat) :
    (headerWord h0 h1 h2).getLsbD j = (decide (j < 24) &&
      (if j < 8 then h0.getLsbD j else if j < 16 then h1.getLsbD (j - 8) else h2.getLsbD (j - 16))) := by
  unfold headerWord
  simp only [BitVec.getLsbD_or, BitVec.getLsbD_shiftLeft, BitVec.getLsbD_setWidth]
  by_cases h : j < 24
  · by_cases h8 : j < 8
    · simp [h, h8, show j < 16 by omega]
    · by_cases h16 : j < 16
      · simp [h, h8, h16, BitVec.getLsbD_of_ge h0 j (by omega), show j - 8 < 24 by omega]
      · simp [h, h8, h16, BitVec.getLsbD_of_ge h0 j (by omega), BitVec.getLsbD_of_ge h1 (j - 8) (by omega),
          show j - 16 < 24 by omega]
  · simp [h]

/-! ## Payload CRC -/

theorem crcShift_xor (x y : Half) : crcShift (x ^^^ y) = crcShift x ^^^ crcShift y := by
  unfold crcShift
  rw [BitVec.getLsbD_xor]
  cases x.getLsbD 0 <;> cases y.getLsbD 0 <;> simp [BitVec.ushiftRight_xor_distrib]
  all_goals
    apply BitVec.eq_of_getLsbD_eq
    intro i hi
    simp [Bool.xor_left_comm, Bool.xor_comm]

/-- The shift register is linear. -/
theorem crcShifts_xor (n : Nat) (x y : Half) : crcShifts n (x ^^^ y) = crcShifts n x ^^^ crcShifts n y := by
  induction n generalizing x y with
  | zero => rfl
  | succ n ih => simp [crcShifts, crcShift_xor, ih]

/-- Where the low `n` bits are zero, `n` shifts feed nothing back. -/
theorem crcShifts_of_low_zero (n : Nat) (x : Half) (h : ∀ i, i < n → x.getLsbD i = false) :
    crcShifts n x = x >>> n := by
  induction n generalizing x with
  | zero => simp [crcShifts]
  | succ n ih =>
    simp only [crcShifts, crcShift, h 0 (by omega), Bool.false_eq_true, if_false]
    rw [ih, ← BitVec.shiftRight_add, Nat.add_comm]
    intro i hi
    simp only [BitVec.getLsbD_ushiftRight]
    rw [Nat.add_comm]
    exact h _ (by omega)

/-! ## Packets -/

/-- The two length bytes of a long header hold the length (R97). -/
theorem lengthBytes (n : Nat) (h : n ≤ 65535) :
    (BitVec.ofNat 8 n).toNat + 256 * (BitVec.ofNat 8 (n / 256)).toNat = n := by
  simp only [BitVec.toNat_ofNat]
  omega

theorem longPacket_length (ms : EccMasks) (p : List Byte) : (longPacket ms p).length = p.length + 6 := by
  simp [longPacket, header, crcTrailer]

theorem framePacket_of_long (ms : EccMasks) (p : List Byte) (h : 3 ≤ p.length) : framePacket ms p = longPacket ms p := by
  match p with
  | [] => simp at h
  | [_] => simp at h
  | [_, _] => simp at h
  | _ :: _ :: _ :: _ => rfl

theorem framePacket_length (ms : EccMasks) (p : List Byte) (h : 1 ≤ p.length) :
    (framePacket ms p).length = if p.length ≤ 2 then 4 else p.length + 6 := by
  match p with
  | [] => simp at h
  | [_] => rfl
  | [_, _] => rfl
  | _ :: _ :: _ :: _ => rw [framePacket_of_long _ _ (by simp), longPacket_length]; simp

/-! ## Transmit-buffer words -/

/-- Byte `j` of word `w` is byte `4 w + j` of the packet, 0 beyond its end (R176). -/
theorem packWord_byte (p : List Byte) (w : Nat) {j : Nat} (hj : j < 4) :
    (packWord p w).extractLsb' (8 * j) 8 = p.getD (4 * w + j) 0 := by
  unfold packWord packByte
  apply BitVec.eq_of_getLsbD_eq
  intro i hi
  simp only [BitVec.getLsbD_extractLsb', BitVec.getLsbD_or, BitVec.getLsbD_shiftLeft, BitVec.getLsbD_setWidth]
  have hge : ∀ (b : Byte) k, 8 ≤ k → b.getLsbD k = false := fun b k hk => BitVec.getLsbD_of_ge b k hk
  have h4 : j = 0 ∨ j = 1 ∨ j = 2 ∨ j = 3 := by omega
  rcases h4 with rfl | rfl | rfl | rfl
  · simp [hi, show i < 32 by omega, show i < 16 by omega, show i < 24 by omega]
  · simp [hi, show 8 + i < 32 by omega, show 8 + i < 16 by omega, show 8 + i < 24 by omega]
    intro _
    omega
  · simp [hi, show 16 + i < 32 by omega, show ¬ 16 + i < 16 by omega, show 16 + i < 24 by omega,
      show 8 ≤ 16 + i - 8 by omega]
    rw [hge _ _ (by omega)]
    simp [show i < 32 by omega]
  · simp [hi, show 24 + i < 32 by omega, show ¬ 24 + i < 16 by omega, show ¬ 24 + i < 24 by omega,
      show 8 ≤ 24 + i - 8 by omega, show 8 ≤ 24 + i - 16 by omega]
    rw [hge _ _ (by omega)]
    simp [show i < 32 by omega]

theorem packWords_length (p : List Byte) : (packWords p).length = (p.length + 3) / 4 := by simp [packWords, ceilDiv]

theorem packWords_getD (p : List Byte) {w : Nat} (h : w < (p.length + 3) / 4) : (packWords p).getD w 0 = packWord p w := by
  simp [packWords, ceilDiv, List.getD_eq_getElem?_getD, h]

/-! ## Descriptor flags -/

theorem flagBit_bit (b b' : Fin 32) : (flagBit b).getLsbD b'.val = decide (b' = b) := by
  rw [flagBit, BitVec.getLsbD_twoPow]
  simp [Fin.ext_iff, eq_comm]

theorem flagIf_bit (c : Bool) (b b' : Fin 32) : (flagIf c b).getLsbD b'.val = (c && decide (b' = b)) := by
  unfold flagIf
  cases c
  · simp
  · rw [if_pos rfl, flagBit_bit]
    simp

end Sys2Proof.Machine
end

