-- ==== Sys2Proof/Laws/PerInstr.lean ====
section
/-! SUPPORT. For each instruction: its serialised request, whatever follows it, is read back as the operation it expands to
(R91, R94, R111). -/

namespace Sys2Proof.Laws

open Sys2Proof

/-- A request whose word is malformed, or that is not BUILD, decodes from its word and its data alone. -/
theorem decodeBytes_plain (u : UnitId) (cw : Word) (data rest : List Byte) (hb : cwIsBuild u cw = false)
    (hl : data.length = cwLen cw) :
    decodeBytes u (leBytes cw ++ data ++ rest) =
      .ok (decode u { cw, data, buf := 0, l := 0, m := 0, desc := 0 }, rest) := by
  unfold decodeBytes
  rw [parseRequest_append u cw data rest (by simp [bodyLength, hb, hl])]
  simp [requestOf, hb]

/-- A well-formed BUILD decodes from its word and its four operand words. -/
theorem decodeBytes_build (u : UnitId) (cw : Word) (buf l m desc : Word) (rest : List Byte) (hb : cwIsBuild u cw = true) :
    decodeBytes u (leBytes cw ++ buildBody buf l m desc ++ rest) =
      .ok (decode u { cw, data := [], buf, l, m, desc }, rest) := by
  obtain ⟨h0, h1, h2, h3⟩ := wordAt_buildBody buf l m desc
  unfold decodeBytes
  rw [parseRequest_append u cw _ rest (by simp [bodyLength, hb])]
  simp [requestOf, hb, h0, h1, h2, h3]

/-- Every framer word with a byte count the operation admits is a row of R91 at fr0. -/
theorem cwMalformed_framer {b : Byte} {op : Op} {n : Nat} (ho : opOfOpsel b = some op) (hu : opIsDb op = false)
    (hn : n < 65536) (h3 : op = .ecc → n = 3) : cwMalformed .fr0 (mkCw b false n) = false := by
  unfold cwMalformed
  rw [cwOpsel_mkCw, ho]
  simp only [cwRsv_mkCw, cwDir_mkCw, cwLen_mkCw b false hn, hu, unitIsDb]
  by_cases he : op = .ecc
  · simp [he, h3 he]
  · simp [he]

end Sys2Proof.Laws

namespace Sys2Proof.Laws.RoundTrip

open Sys2Proof

/-- The instruction's serialised request, with anything after it, decodes to what it expands to. -/
def Statement (i : Instr) : Prop :=
  i.wf = true → ∀ u bs, encode i = some (u, bs) → ∀ rest, decodeBytes u (bs ++ rest) = .ok (i.expand, rest)

/-- A payload that fits the LEN field. -/
theorem length_lt {data : List Byte} (h : decide (data.length ≤ maxLenField) = true) : data.length < 65536 :=
  Nat.lt_succ_of_le (of_decide_eq_true h)

/-- A word that is not malformed decodes by its OPSEL and its instance. -/
theorem decode_row {u : UnitId} {b : Byte} {d : Bool} {n : Nat} {op : Op} {data : List Byte} {buf l m desc : Word}
    (hm : cwMalformed u (mkCw b d n) = false) (ho : opOfOpsel b = some op) :
    decode u { cw := mkCw b d n, data, buf, l, m, desc } = instrOfOp op u { cw := mkCw b d n, data, buf, l, m, desc } := by
  unfold decode
  dsimp only
  rw [hm, cwOpsel_mkCw, ho]
  rfl

/-- The shape of the framer's rows. -/
theorem framer_row {i j : Instr} {b : Byte} {op : Op} {data : List Byte} (hn : data.length < 65536)
    (he : encode i = some (.fr0, leBytes (mkCw b false data.length) ++ data)) (ho : opOfOpsel b = some op)
    (hu : opIsDb op = false) (h3 : op = .ecc → data.length = 3) (hx : i.expand = j)
    (hd : decode .fr0 { cw := mkCw b false data.length, data, buf := 0, l := 0, m := 0, desc := 0 } = j) :
    ∀ u bs, encode i = some (u, bs) → ∀ rest, decodeBytes u (bs ++ rest) = .ok (i.expand, rest) := by
  intro u bs h rest
  rw [he] at h
  injection h with h
  injection h with hu' hbs
  subst hu' hbs
  have hm := cwMalformed_framer ho hu hn h3
  rw [decodeBytes_plain _ _ _ _ (by simp [cwIsBuild, ho]; intro _ hc; subst hc; simp [opIsDb] at hu)
    (cwLen_mkCw b false hn).symm, hd, hx]

theorem ecc (h0 h1 h2 : Byte) : Statement (.ecc h0 h1 h2) := fun _ =>
  framer_row (data := [h0, h1, h2]) (op := .ecc) (by simp) rfl (by decide) rfl (fun _ => rfl) rfl
    (decode_row (op := .ecc) (cwMalformed_framer (b := 0x01) (op := .ecc) (by decide) rfl (by simp) fun _ => rfl) (by decide))

theorem crc (data : List Byte) : Statement (.crc data) := fun h =>
  framer_row (op := .crc) (length_lt h) rfl (by decide) rfl (fun e => nomatch e) rfl
    (decode_row (op := .crc) (cwMalformed_framer (b := 0x02) (op := .crc) (by decide) rfl (length_lt h) fun e => nomatch e) (by decide))

theorem short (data : List Byte) : Statement (.short data) := fun h =>
  framer_row (op := .short) (length_lt h) rfl (by decide) rfl (fun e => nomatch e) rfl
    (decode_row (op := .short) (cwMalformed_framer (b := 0x03) (op := .short) (by decide) rfl (length_lt h) fun e => nomatch e) (by decide))

theorem long (data : List Byte) : Statement (.long data) := fun h =>
  framer_row (op := .long) (length_lt h) rfl (by decide) rfl (fun e => nomatch e) rfl
    (decode_row (op := .long) (cwMalformed_framer (b := 0x04) (op := .long) (by decide) rfl (length_lt h) fun e => nomatch e) (by decide))

theorem frame (data : List Byte) : Statement (.frame data) := fun h =>
  framer_row (op := .frame) (length_lt h) rfl (by decide) rfl (fun e => nomatch e) rfl
    (decode_row (op := .frame) (cwMalformed_framer (b := 0x05) (op := .frame) (by decide) rfl (length_lt h) fun e => nomatch e) (by decide))

theorem framew (data : List Byte) : Statement (.framew data) := fun h =>
  framer_row (op := .framew) (length_lt h) rfl (by decide) rfl (fun e => nomatch e) rfl
    (decode_row (op := .framew) (cwMalformed_framer (b := 0x06) (op := .framew) (by decide) rfl (length_lt h) fun e => nomatch e) (by decide))

theorem sendcmd (data : List Byte) : Statement (.sendcmd data) := fun h =>
  framer_row (op := .framew) (length_lt h) rfl (by decide) rfl (fun e => nomatch e) rfl
    (decode_row (op := .framew) (cwMalformed_framer (b := 0x06) (op := .framew) (by decide) rfl (length_lt h) fun e => nomatch e) (by decide))

/-- The shape of the two BUILD rows, DIR 0 and DIR 1. -/
theorem build_row {i : Instr} {k : DbId} {d : Bool} {buf l m desc : Word}
    (he : encode i = some (.db k, leBytes (mkCw 0x10 d 0) ++ buildBody buf l m desc))
    (hx : i.expand = if d then .buildFrom k buf l m desc else .buildTo k buf l m desc) :
    ∀ u bs, encode i = some (u, bs) → ∀ rest, decodeBytes u (bs ++ rest) = .ok (i.expand, rest) := by
  intro u bs h rest
  rw [he] at h
  injection h with h
  injection h with hu hbs
  subst hu hbs
  have ho : opOfOpsel 0x10 = some .build := by decide
  generalize (0x10 : Byte) = b at ho
  have hm : cwMalformed (.db k) (mkCw b d 0) = false := by
    unfold cwMalformed
    rw [cwOpsel_mkCw, ho]
    simp [opIsDb, unitIsDb, cwLen_mkCw b d (n := 0) (by omega)]
  have hb : cwIsBuild (.db k) (mkCw b d 0) = true := by simp [cwIsBuild, hm, ho]
  rw [decodeBytes_build _ _ _ _ _ _ _ hb, hx, decode_row hm ho]
  simp [instrOfOp]

theorem buildTo (k : DbId) (buf l m desc : Word) : Statement (.buildTo k buf l m desc) := fun _ =>
  build_row (d := false) rfl rfl

theorem buildFrom (k : DbId) (buf l m desc : Word) : Statement (.buildFrom k buf l m desc) := fun _ =>
  build_row (d := true) rfl rfl

theorem buildW (k : DbId) (buf l m desc : Word) : Statement (.buildW k buf l m desc) := fun _ =>
  build_row (d := false) rfl rfl

theorem buildR (k : DbId) (buf l m desc : Word) : Statement (.buildR k buf l m desc) := fun _ =>
  build_row (d := true) rfl rfl

/-- The shape of the three builder rows without operands. -/
theorem event_row {i : Instr} {k : DbId} {b : Byte} {op : Op}
    (he : encode i = some (.db k, leBytes (mkCw b false 0))) (ho : opOfOpsel b = some op)
    (hop : op ≠ .build) (hx : decode (.db k) { cw := mkCw b false 0, data := [], buf := 0, l := 0, m := 0, desc := 0 } = i.expand) :
    ∀ u bs, encode i = some (u, bs) → ∀ rest, decodeBytes u (bs ++ rest) = .ok (i.expand, rest) := by
  intro u bs h rest
  rw [he] at h
  injection h with h
  injection h with hu' hbs
  subst hu' hbs
  have hl := cwLen_mkCw b false (n := 0) (by omega)
  have := decodeBytes_plain (.db k) (mkCw b false 0) [] rest (by simp [cwIsBuild, ho, hop]) (by simp [hl])
  rw [List.append_nil, hx] at this
  exact this

theorem cwMalformed_event {k : DbId} {b : Byte} {op : Op} (ho : opOfOpsel b = some op) (hu : opIsDb op = true) :
    cwMalformed (.db k) (mkCw b false 0) = false := by
  unfold cwMalformed
  rw [cwOpsel_mkCw, ho]
  have : op ≠ .ecc := by rintro rfl; simp [opIsDb] at hu
  simp [hu, unitIsDb, this, cwLen_mkCw b false (n := 0) (by omega)]

theorem release (k : DbId) : Statement (.release k) := fun _ =>
  event_row (op := .release) rfl (by decide) (by simp)
    (decode_row (op := .release) (cwMalformed_event (b := 0x11) (op := .release) (by decide) rfl) (by decide))

theorem evEnabled (k : DbId) : Statement (.evEnabled k) := fun _ =>
  event_row (op := .evEnabled) rfl (by decide) (by simp)
    (decode_row (op := .evEnabled) (cwMalformed_event (b := 0x12) (op := .evEnabled) (by decide) rfl) (by decide))

theorem evComplete (k : DbId) : Statement (.evComplete k) := fun _ =>
  event_row (op := .evComplete) rfl (by decide) (by simp)
    (decode_row (op := .evComplete) (cwMalformed_event (b := 0x13) (op := .evComplete) (by decide) rfl) (by decide))

theorem pkt05 (d0 : Byte) : Statement (.pkt05 d0) := fun _ _ _ h => nomatch h

theorem pkt15 (d0 d1 : Byte) : Statement (.pkt15 d0 d1) := fun _ _ _ h => nomatch h

theorem pkt39 (payload : List Byte) : Statement (.pkt39 payload) := fun _ _ _ h => nomatch h

theorem reserved (u : UnitId) (cw : Word) (data : List Byte) : Statement (.reserved u cw data) := by
  intro h u' bs he rest
  simp only [Instr.wf, Bool.and_eq_true, beq_iff_eq] at h
  injection he with he
  injection he with hu hbs
  subst hu hbs
  rw [decodeBytes_plain _ _ _ _ (by simp [cwIsBuild, h.1]) h.2]
  simp [decode, h.1, Instr.expand]

end Sys2Proof.Laws.RoundTrip
end

