-- ==== Sys2Proof/Tests/Slice0.lean ====
section
/-! SUPPORT. The author's own tests: words written out from the spec's encodings, ill-formed terms that the checks refuse,
one or two vectors of 95_test_vectors.md for each instruction, and a witness for each statement that has hypotheses. -/

namespace Sys2Proof.Tests

open Sys2Proof Sys2Proof.Machine Sys2Proof.Claims

/-! ## Helpers -/

/-- The next state, where there is one. -/
def nextOf (o : Host.Outcome State Fault Refusal) : Option State :=
  match o with
  | .next s => some s
  | .fault _ => none
  | .refused _ => none

/-- The response of an instance after an instruction. -/
def rspOf (u : UnitId) (o : Host.Outcome State Fault Refusal) : Option Rsp := (nextOf o).map fun s => s.rsp u

/-- What an instruction does to db0's chain state, fault flag and fault code, with its status. -/
def dbOf (o : Host.Outcome State Fault Refusal) : Option (Byte × ChainState × Bool × Byte) :=
  (nextOf o).map fun s => (s.db0.rsp.status, s.db0.chain.state, s.db0.faulted, s.db0.faultCode)

/-- The bytes of memory from an address after an instruction. -/
def bytesOf (a n : Nat) (o : Host.Outcome State Fault Refusal) : Option (List (Option Byte)) :=
  (nextOf o).map fun s => (List.range n).map fun i => s.mem.get (a + i)

/-- The chain of R211, in a given state. -/
def chainIn (c : ChainState) : ChainRegs :=
  { state := c, base := 0x40100000, count := 3, buf := 0x40000000, len := 10000, dir := .fromDevice }

/-- The machine after reset, with that chain at db0. -/
def stateIn (c : ChainState) : State := { State.reset with db0 := { DbUnit.reset with chain := chainIn c } }

/-- The machine after reset, with db0 faulted by an early RELEASE. -/
def stateFaulted : State := { State.reset with db0 := { DbUnit.reset with faulted := true, faultCode := 0x17 } }

/-- The machine of two builders. -/
def stateOfTwo : State := { State.reset with cfg := { Config.default with nDb := .two } }

/-- A long payload; `decide` does not walk it. -/
def zeros (n : Nat) : List Byte := List.replicate n 0

theorem zeros_length (n : Nat) : (zeros n).length = n := by rw [zeros, List.length_replicate]

/-- A request of a command word and its data. -/
def plain (cw : Word) (data : List Byte) : Request := { cw, data, buf := 0, l := 0, m := 0, desc := 0 }

/-! ## Decoding: words written bit by bit from R90 and the opcode table, bytes from R94 -/

theorem test_decode_ecc_bits :
    decodeTableWord 32 0b00000000000000110000000000000001 = some (.ecc 0 0 0) := by decide
theorem test_decode_short_bits :
    decodeTableWord 32 0b00000000000000100000000000000011 = some (.short [0, 0]) := by decide
theorem test_decode_buildFrom_bits :
    decodeTableWord 32 0b00000000000000000000000100010000 = some (.buildFrom .db0 0 0 0 0) := by decide
theorem test_decode_evEnabled_bits :
    decodeTableWord 32 0b00000000000000000000000000010010 = some (.evEnabled .db0) := by decide

theorem test_decode_ecc :
    (decodeBytes .fr0 [0x01, 0x00, 0x03, 0x00, 0x39, 0x04, 0x00]).toOption = some (.ecc 0x39 0x04 0x00, []) := by decide
theorem test_decode_crc :
    (decodeBytes .fr0 [0x02, 0x00, 0x04, 0x00, 0x2A, 0x00, 0x00, 0xEF]).toOption =
      some (.crc [0x2A, 0x00, 0x00, 0xEF], []) := by decide
theorem test_decode_short :
    (decodeBytes .fr0 [0x03, 0x00, 0x03, 0x00, 0x2A, 0x00, 0x00]).toOption = some (.short [0x2A, 0x00, 0x00], []) := by
  decide
theorem test_decode_long :
    (decodeBytes .fr0 [0x04, 0x00, 0x04, 0x00, 0x2A, 0x00, 0x00, 0xEF]).toOption =
      some (.long [0x2A, 0x00, 0x00, 0xEF], []) := by decide
theorem test_decode_frame :
    (decodeBytes .fr0 [0x05, 0x00, 0x02, 0x00, 0x36, 0x00, 0x99]).toOption = some (.frame [0x36, 0x00], [0x99]) := by decide
theorem test_decode_framew :
    (decodeBytes .fr0 [0x06, 0x00, 0x01, 0x00, 0x11]).toOption = some (.framew [0x11], []) := by decide
theorem test_decode_buildTo :
    (decodeBytes (.db .db1) [0x10, 0x00, 0x00, 0x00, 0x00, 0x10, 0x00, 0x00, 0x10, 0x00, 0x00, 0x00, 0x04, 0x00, 0x00, 0x00,
      0x00, 0x01, 0x00, 0x00]).toOption = some (.buildTo .db1 0x1000 16 4 0x100, []) := by decide
theorem test_decode_buildFrom :
    (decodeBytes (.db .db0) [0x10, 0x01, 0x00, 0x00, 0x00, 0x00, 0x00, 0x40, 0x10, 0x27, 0x00, 0x00, 0x00, 0x10, 0x00, 0x00,
      0x00, 0x00, 0x10, 0x40]).toOption = some (.buildFrom .db0 0x40000000 10000 4096 0x40100000, []) := by decide
theorem test_decode_release :
    (decodeBytes (.db .db1) [0x11, 0x00, 0x00, 0x00]).toOption = some (.release .db1, []) := by decide
theorem test_decode_evEnabled :
    (decodeBytes (.db .db2) [0x12, 0x00, 0x00, 0x00]).toOption = some (.evEnabled .db2, []) := by decide
theorem test_decode_evComplete :
    (decodeBytes (.db .db0) [0x13, 0x00, 0x00, 0x00]).toOption = some (.evComplete .db0, []) := by decide
/-- 95_test_vectors.md P3 step 3. -/
theorem test_decode_reserved :
    (decodeBytes (.db .db1) [0x10, 0x02, 0x00, 0x00]).toOption = some (.reserved (.db .db1) 0x00000210 [], []) := by decide
/-- Section 2.7: FRAME sent to DB, with its data byte. -/
theorem test_decode_other_unit :
    (decodeBytes (.db .db0) [0x05, 0x00, 0x01, 0x00, 0x11]).toOption =
      some (.reserved (.db .db0) 0x00010005 [0x11], []) := by decide
theorem test_decode_cut_short :
    (decodeBytes .fr0 [0x05, 0x00, 0x02, 0x00, 0x36]).toOption = none := by decide
/-- R111: the pseudo-instructions have the words of the operations they expand to. -/
theorem test_encode_pseudo :
    encode (.sendcmd [0x11]) = encode (.framew [0x11]) ∧
      encode (.buildW .db1 1 2 3 4) = encode (.buildTo .db1 1 2 3 4) ∧
      encode (.buildR .db1 1 2 3 4) = encode (.buildFrom .db1 1 2 3 4) := by decide
/-- R96, R97: the packet reader on packets of section 2.3. -/
theorem test_decode_packets :
    decodePacket [0x05, 0x11, 0x00, 0x36] = some (.pkt05 0x11, []) ∧
      decodePacket [0x15, 0x36, 0x00, 0x29, 0x05] = some (.pkt15 0x36 0x00, [0x05]) ∧
      decodePacket [0x39, 0x03, 0x00, 0x09, 0x01, 0x02, 0x03, 0xC4, 0x62] = some (.pkt39 [0x01, 0x02, 0x03], []) ∧
      decodePacket [0x13, 0x11, 0x00, 0x36] = none := by decide

/-! ## Well-formedness: an ill-formed term for each check -/

theorem test_wf_payload_too_long :
    (Instr.crc (zeros 65536)).wf = false ∧ (Instr.short (zeros 65536)).wf = false ∧
      (Instr.long (zeros 65536)).wf = false ∧ (Instr.frame (zeros 65536)).wf = false ∧
      (Instr.framew (zeros 65536)).wf = false ∧ (Instr.sendcmd (zeros 65536)).wf = false ∧
      (Instr.pkt39 (zeros 65536)).wf = false := by
  simp only [Instr.wf, maxLenField, zeros_length]
  decide
theorem test_wf_reserved_word_is_an_operation : (Instr.reserved .fr0 0x00010005 [0x11]).wf = false := by decide
theorem test_wf_reserved_data_length : (Instr.reserved .fr0 0x00010007 []).wf = false := by decide
theorem test_wf_config_shared_flag :
    ¬ ({ Config.default with descLayout := { DescLayout.standard with ld := 3 } } : Config).wf := by decide
theorem test_wf_config_wide_size : ¬ ({ Config.default with sizeFieldBits1 := 33 } : Config).wf := by decide
theorem test_wf_memory_order : ¬ Memory.wf [(4, 0x00), (3, 0x00)] ∧ ¬ Memory.wf [(3, 0x00), (3, 0x01)] := by decide
theorem test_wf_memory_range : ¬ Memory.wf [(4294967296, 0x00)] := by decide

/-! ## Vectors -/

/-- Section 2.1. -/
theorem test_ecc_exit_sleep : rspOf .fr0 (exec (.ecc 0x05 0x11 0x00) State.reset) =
    some { Rsp.empty with value := 0x0036, count := 1, bytes := [0x36] } := by decide
/-- Section 2.1. -/
theorem test_ecc_values : ecc .standard 0xFF 0xFF 0xFF = 0x3C ∧ ecc .standard 0x15 0x3A 0x77 = 0x1F ∧
    ecc .standard 0x39 0xFA 0x00 = 0x3F ∧ ecc .standard 0x00 0x00 0x80 = 0x3B := by decide
/-- Section 2.2. -/
theorem test_crc_three_bytes : rspOf .fr0 (exec (.crc [0x01, 0x02, 0x03]) State.reset) =
    some { Rsp.empty with value := 0x62C4, count := 2, bytes := [0xC4, 0x62] } := by decide +kernel
/-- Section 2.2. -/
theorem test_crc_values : crc16 [0x80] = 0x8B8F ∧ crc16 [0x11, 0x29] = 0xC032 ∧ crc16 [0xFF, 0xFF, 0xFF, 0xFF] = 0xF0B8 ∧
    crc16 [0x2A, 0x00, 0x00, 0x01, 0x3F] = 0xCC1D := by decide +kernel
/-- Section 2.3. -/
theorem test_short_two_bytes : rspOf .fr0 (exec (.short [0x3A, 0x77]) State.reset) =
    some { Rsp.empty with count := 4, bytes := [0x15, 0x3A, 0x77, 0x1F] } := by decide
/-- Section 2.3. -/
theorem test_short_of_three : rspOf .fr0 (exec (.short [0x2A, 0x00, 0x00]) State.reset) =
    some { Rsp.empty with status := 0x01 } := by decide
/-- Section 2.3. -/
theorem test_long_empty : rspOf .fr0 (exec (.long []) State.reset) =
    some { Rsp.empty with value := 0xFFFF, count := 6, bytes := [0x39, 0x00, 0x00, 0x0F, 0xFF, 0xFF] } := by decide
/-- Section 2.3. -/
theorem test_long_one_byte : rspOf .fr0 (exec (.long [0x11]) State.reset) =
    some { Rsp.empty with value := 0x0E8F, count := 7, bytes := [0x39, 0x01, 0x00, 0x15, 0x11, 0x8F, 0x0E] } := by decide
/-- Section 2.4. -/
theorem test_frame_two_bytes : rspOf .fr0 (exec (.frame [0x36, 0x00]) State.reset) =
    some { Rsp.empty with count := 4, bytes := [0x15, 0x36, 0x00, 0x29] } := by decide
/-- Section 2.4. -/
theorem test_frame_three_bytes : rspOf .fr0 (exec (.frame [0x01, 0x02, 0x03]) State.reset) =
    some { Rsp.empty with
      value := 0x62C4, count := 9, bytes := [0x39, 0x03, 0x00, 0x09, 0x01, 0x02, 0x03, 0xC4, 0x62] } := by decide +kernel
/-- Section 2.4: three words, two bytes of padding. -/
theorem test_framew_four_bytes : rspOf .fr0 (exec (.framew [0x2A, 0x00, 0x00, 0xEF]) State.reset) =
    some { Rsp.empty with
      value := 0x4F25, count := 10, bytes := [0x39, 0x04, 0x00, 0x2C, 0x2A, 0x00, 0x00, 0xEF, 0x25, 0x4F]
      words := [0x2C000439, 0xEF00002A, 0x00004F25], pktlenM1 := 0x09 } := by decide +kernel
/-- Section 2.4: no padding. -/
theorem test_framew_six_bytes : (rspOf .fr0 (exec (.framew [0x00, 0x01, 0x02, 0x03, 0x04, 0x05]) State.reset)).map Rsp.words =
    some [0x30000639, 0x03020100, 0xE5EB0504] := by decide +kernel
/-- P1 step 1. -/
theorem test_sendcmd_exit_sleep : rspOf .fr0 (exec (.sendcmd [0x11]) State.reset) =
    some { Rsp.empty with count := 4, bytes := [0x05, 0x11, 0x00, 0x36], words := [0x36001105], pktlenM1 := 0x03 } := by
  decide
/-- P1 step 4. -/
theorem test_sendcmd_empty : rspOf .fr0 (exec (.sendcmd []) State.reset) =
    some { Rsp.empty with status := 0x02 } := by decide
/-- R96 and section 2.3. -/
theorem test_pkt05 : (rspOf .fr0 (exec (.pkt05 0x28) State.reset)).map Rsp.bytes = some [0x05, 0x28, 0x00, 0x06] := by decide
/-- R96 and section 2.3. -/
theorem test_pkt15 : (rspOf .fr0 (exec (.pkt15 0x36 0x00) State.reset)).map Rsp.bytes =
    some [0x15, 0x36, 0x00, 0x29] := by decide
/-- R97 and section 2.3. -/
theorem test_pkt39 : (rspOf .fr0 (exec (.pkt39 [0x36, 0x00]) State.reset)).map Rsp.bytes =
    some [0x39, 0x02, 0x00, 0x13, 0x36, 0x00, 0xCA, 0x12] := by decide +kernel

/-- P3 step 5: the first and the last descriptor in memory, and the byte below the array. -/
theorem test_buildTo_memory :
    bytesOf 0xFF 17 (exec (.buildTo .db1 0x1000 16 4 0x100) State.reset) =
      some (none :: [0x1A, 0x00, 0x00, 0x80, 0x04, 0x00, 0x00, 0x00, 0x00, 0x10, 0x00, 0x00, 0x10, 0x01, 0x00, 0x00].map some) ∧
    bytesOf 0x130 17 (exec (.buildTo .db1 0x1000 16 4 0x100) State.reset) =
      some ([0x14, 0x00, 0x00, 0x80, 0x04, 0x00, 0x00, 0x00, 0x0C, 0x10, 0x00, 0x00, 0x00, 0x00, 0x00, 0x00].map some ++ [none]) := by
  decide
/-- Section 2.5: array [F0, 130) meets buffer [100, 110); array ends where the buffer starts. -/
theorem test_buildTo_overlap :
    dbOf (exec (.buildTo .db0 0x100 16 4 0xF0) State.reset) = some (0x14, .empty, true, 0x14) ∧
      dbOf (exec (.buildTo .db0 0x100 16 4 0xC0) State.reset) = some (0x00, .built, false, 0x00) := by decide
/-- R211: the middle descriptor. -/
theorem test_buildFrom_memory :
    bytesOf 0x40100010 16 (exec (.buildFrom .db0 0x40000000 10000 4096 0x40100000) State.reset) =
      some ([0x12, 0x00, 0x00, 0x80, 0x00, 0x10, 0x00, 0x00, 0x00, 0x10, 0x00, 0x40, 0x20, 0x00, 0x10, 0x40].map some) := by
  decide
/-- R211: the chain registers and the coherence event. -/
theorem test_buildFrom_chain :
    (nextOf (exec (.buildFrom .db0 0x40000000 10000 4096 0x40100000) State.reset)).map
        (fun s => (s.db0.chain, s.db0.rsp.count, collaboratorEvents s.history)) =
      some (chainIn .built, 3, [.coherence .invalidate 0x40000000 10000]) := by decide
/-- Section 2.5: the largest M, and one past it. -/
theorem test_buildW_chunk_limit :
    dbOf (exec (.buildW .db0 0x40000000 65532 65532 0x40100000) State.reset) = some (0x00, .built, false, 0x00) ∧
      dbOf (exec (.buildW .db0 0 8 65536 0x10) State.reset) = some (0x11, .empty, true, 0x11) := by decide
/-- Section 2.5: the array ends at 2^32, and one descriptor later. -/
theorem test_buildR_address_limit :
    dbOf (exec (.buildR .db0 0x100 16 4 0xFFFFFFC0) State.reset) = some (0x00, .built, false, 0x00) ∧
      dbOf (exec (.buildR .db0 0x100 16 4 0xFFFFFFD0) State.reset) = some (0x13, .empty, true, 0x13) := by decide
/-- Section 2.6: DONE. -/
theorem test_release_done :
    (nextOf (exec (.release .db0) (stateIn .done))).map (fun s => (s.db0.chain, s.db0.rsp.count, s.history)) =
      some (.empty, 3, [.free 0x40100000]) := by decide
/-- P2 step 4. -/
theorem test_release_owned : dbOf (exec (.release .db0) (stateIn .hw)) = some (0x16, .hw, true, 0x16) := by decide
/-- Section 2.6. -/
theorem test_evEnabled : dbOf (exec (.evEnabled .db0) (stateIn .built)) = some (0x00, .hw, false, 0x00) ∧
    dbOf (exec (.evEnabled .db0) (stateIn .done)) = some (0x18, .done, true, 0x18) := by decide
/-- Section 2.6. -/
theorem test_evComplete : dbOf (exec (.evComplete .db0) (stateIn .hw)) = some (0x00, .done, false, 0x00) ∧
    dbOf (exec (.evComplete .db0) (stateIn .built)) = some (0x18, .built, true, 0x18) := by decide
/-- Section 2.7: malformed beats sticky and leaves the first code; RELEASE is sticky. -/
theorem test_reserved_beats_sticky :
    dbOf (exec (.reserved (.db .db0) 0x00000210 []) stateFaulted) = some (0x04, .empty, true, 0x17) ∧
      dbOf (exec (.release .db0) stateFaulted) = some (0x1F, .empty, true, 0x17) := by decide

/-- A word of the opcode table runs as the first instruction. -/
theorem test_step_table_word :
    (nextOf (step (State.reset.withFetchWord 32 0x00030001))).map (fun s => (s.fr0.rsp.value, s.inputs)) =
      some (0x0000, []) ∧
    (nextOf (step (State.reset.withFetchWord 32 0x00000011))).map (fun s => s.db0.rsp.status) = some 0x17 := by decide
/-- A request that waits reaches the latches, and the next one stays (R43). -/
theorem test_step_admits_one :
    (nextOf (step ({ State.reset with inputs := [.perform (.db .db1)] }.receive (.db .db1)
        [0x11, 0x00, 0x00, 0x00, 0x13, 0x00, 0x00, 0x00]))).map (fun s => s.db1.port) =
      some { latch := some (plain 0x00000011 []), wire := [0x13, 0x00, 0x00, 0x00] } := by decide

/-! ## Witnesses: for each statement with hypotheses, operands and a state that meet them, one for each clause -/

/-- MalformedWordsAnswerMalformedOnly: a word for each case of R92 and a well-formed one; an instance that exists. -/
theorem witness_MalformedWordsAnswerMalformedOnly :
    (plain 0x00010007 [0x00]).data.length = cwLen (plain 0x00010007 [0x00]).cw ∧ MalformedAt .fr0 0x00010007 ∧
      MalformedAt .fr0 0x00000010 ∧ MalformedAt (.db .db0) 0x00010005 ∧ MalformedAt .fr0 0x00010205 ∧
      MalformedAt .fr0 0x00010105 ∧ MalformedAt .fr0 0x00020001 ∧ MalformedAt (.db .db0) 0x00040010 ∧
      (plain 0x00000000 []).data.length = cwLen (plain 0x00000000 []).cw ∧
      ¬ MalformedAt .fr0 0x00030001 ∧ ¬ MalformedAt (.db .db1) 0x00000110 ∧
      State.reset.cfg.hasUnit (.db .db2) = true := by
  simp only [MalformedAt]
  and_intros <;> decide

/-- EncodedRequestDecodesToItsOperation: an operation, an output format, a reserved word, the two ends of LEN. -/
theorem witness_EncodedRequestDecodesToItsOperation :
    (Instr.frame [0x11]).wf = true ∧ encode (.frame [0x11]) = some (.fr0, [0x05, 0x00, 0x01, 0x00, 0x11]) ∧
      (Instr.crc []).wf = true ∧ (Instr.pkt05 0x11).wf = true ∧ (Instr.pkt05 0x11).isOutputFormat = true ∧
      (Instr.reserved .fr0 0x00010007 [0x00]).wf = true := by decide
theorem witness_EncodedRequest_longest : (Instr.long (zeros 65535)).wf = true := by
  simp only [Instr.wf, maxLenField, zeros_length]
  decide

theorem witness_DecodedRequestIsItsEncoding :
    decodeBytes (.db .db1) [0x11, 0x00, 0x00, 0x00, 0x7F] = .ok (.release .db1, [0x7F]) := rfl

/-- The lengths that FRAME frames and that only LONG and PKT_39 make long packets of, and a long packet of no byte. -/
theorem witness_PacketReaderInvertsFraming :
    (0x13 : Byte) ∉ [(0x05 : Byte), 0x15, 0x39] ∧ [(0x11 : Byte)] ≠ [] ∧ [(0x11 : Byte)].length ≤ 65535 ∧
      ([] : List Byte).length ≤ 65535 ∧
      (Instr.long [] = .long [] ∨ Instr.long [] = .pkt39 []) ∧ ∃ t, exec (.long []) State.reset = .next t :=
  ⟨by decide, by decide, by decide, by decide, .inl rfl, _, rfl⟩
theorem witness_PacketReader_longest : (zeros 65535).length ≤ 65535 ∧
    (zeros 65535) ≠ [] := by
  refine ⟨by rw [zeros_length], fun h => ?_⟩
  have := congrArg List.length h
  rw [zeros_length] at this
  cases this

/-- The machine after reset with a request in fr0's latches. -/
def stateLatched (inputs : List Input) : State :=
  { State.reset with
    inputs := inputs
    fr0 := { FrUnit.reset with port := { latch := some (plain 0x00010005 [0x11]), wire := [] } } }

theorem witness_StepPerformsTheLatchedRequest :
    ((stateLatched [.perform .fr0]).port .fr0).latch = some (plain 0x00010005 [0x11]) ∧
      decode .fr0 (plain 0x00010005 [0x11]) = .frame [0x11] ∧ (stateLatched [.perform .fr0]).cfg.hasUnit .fr0 = true ∧
      (stateLatched [.perform .fr0]).inputs = [.perform .fr0] ∧
      ((stateLatched []).port .fr0).latch = some (plain 0x00010005 [0x11]) ∧ (stateLatched []).inputs = [] ∧
      (stateLatched []).nextServed = some .fr0 := by decide

/-- The machine after reset with these bytes waiting at db1. -/
def stateWaiting (inputs : List Input) (wire : List Byte) : State :=
  { State.reset with inputs := inputs, db1 := { DbUnit.reset with port := { latch := none, wire := wire } } }

theorem witness_WaitingRequestsReachTheLatchesInOrder :
    (Instr.release .db1).wf = true ∧ encode (.release .db1) = some (.db .db1, [0x11, 0x00, 0x00, 0x00]) ∧
      State.reset.cfg.hasUnit (.db .db1) = true ∧
      (stateWaiting [.perform (.db .db1)] ([0x11, 0x00, 0x00, 0x00] ++ [0x13])).port (.db .db1) =
        { latch := none, wire := [0x11, 0x00, 0x00, 0x00] ++ [0x13] } ∧
      (stateWaiting [.perform (.db .db1)] ([0x11, 0x00, 0x00, 0x00] ++ [0x13])).inputs = [.perform (.db .db1)] := by decide

theorem witness_SentBytesWaitAtThePort :
    State.reset.cfg.hasUnit (.db .db0) = true ∧
      ({ State.reset with inputs := [.send (.db .db0) [0x11]] } : State).inputs = [.send (.db .db0) [0x11]] := by decide

theorem witness_CutShortRequestStaysHeld :
    (Instr.release .db1).wf = true ∧ encode (.release .db1) = some (.db .db1, [0x11, 0x00, 0x00, 0x00]) ∧
      3 < [(0x11 : Byte), 0x00, 0x00, 0x00].length ∧ 0 < [(0x11 : Byte), 0x00, 0x00, 0x00].length ∧
      State.reset.cfg.hasUnit (.db .db1) = true ∧
      (stateWaiting [.perform (.db .db1)] [0x11, 0x00, 0x00]).port (.db .db1) =
        { latch := none, wire := [0x11, 0x00, 0x00, 0x00].take 3 } ∧
      (stateWaiting [.perform (.db .db1)] [0x11, 0x00, 0x00]).inputs = [.perform (.db .db1)] := by decide

theorem witness_WaitingRequestIsPerformedInTwoSteps :
    (Instr.release .db1).wf = true ∧ encode (.release .db1) = some (.db .db1, [0x11, 0x00, 0x00, 0x00]) ∧
      (stateWaiting [] ([0x11, 0x00, 0x00, 0x00] ++ [])).inputs = [] ∧
      (stateWaiting [] ([0x11, 0x00, 0x00, 0x00] ++ [])).nextServed = some (.db .db1) ∧
      (stateWaiting [] ([0x11, 0x00, 0x00, 0x00] ++ [])).port (.db .db1) =
        { latch := none, wire := [0x11, 0x00, 0x00, 0x00] ++ [] } := by decide

theorem witness_IdleBlockStaysAsItIs :
    State.reset.inputs = [] ∧ ∀ u, State.reset.cfg.hasUnit u = true →
      (State.reset.port u).latch = none ∧ ∃ e, parseRequest u (State.reset.port u).wire = .error e := by
  refine ⟨rfl, fun u _ => ?_⟩
  cases u with
  | fr0 => exact ⟨rfl, _, rfl⟩
  | db k => cases k <;> exact ⟨rfl, _, rfl⟩

theorem witness_ResetInputRestoresOneInstance :
    ({ stateFaulted with inputs := [.reset .fr0] } : State).inputs = [.reset .fr0] ∧
      stateFaulted.cfg.hasDb .db0 = true ∧
      ({ stateFaulted with inputs := [.reset (.db .db0)] } : State).inputs = [.reset (.db .db0)] := by decide

theorem witness_ExternalWriteChangesOneByte :
    ({ State.reset with inputs := [.extWrite 0xFFFFFFFF 0x80] } : State).inputs = [.extWrite 0xFFFFFFFF 0x80] ∧
      (0 : Nat) ≠ (0xFFFFFFFF : Word).toNat := by decide

/-- R211's chain: 10000 bytes in chunks of 4096 give the count 3. -/
theorem witness_StepKeepsInvariant : (stateIn .hw).Inv ∧ ∃ t, step (stateIn .hw) = .next t :=
  have atReset : ∀ n, DbUnit.reset.wf n := fun _ => ⟨by decide, by decide, ⟨fun _ => rfl, fun h => absurd rfl h⟩, by decide⟩
  ⟨⟨by decide, by decide,
    ⟨by decide, by decide, ⟨(fun h => nomatch h), fun _ => ⟨by decide, by decide, by decide, by decide, by decide, by decide,
      by decide, by decide, by decide, 4096, by decide⟩⟩, by decide⟩,
    atReset _, atReset _, by decide⟩, _, rfl⟩
/-- R200: no chunk size gives five descriptors for a buffer of four bytes. -/
theorem test_invariant_ties_count_to_len :
    ¬ ({ chainIn .hw with count := 5, len := 4 } : ChainRegs).describesChain 65535 := by
  rintro ⟨-, -, -, -, -, -, -, -, -, m, h0, -, -, hc⟩
  change 5 = (4 + m - 1) / m at hc
  have h := Nat.div_mul_le_self (4 + m - 1) m
  rw [← hc] at h
  omega

/-- Two pool ranges side by side, and a third after a gap. -/
def configOfThreeRanges : Config := { Config.default with dmaPool := [⟨0x100, 0x10⟩, ⟨0x110, 0x10⟩, ⟨0x130, 0x10⟩] }

/-- R72: the pool is a set of addresses, so a range may lie across two adjacent ranges of it. -/
theorem test_pool_range_across_two : inPool configOfThreeRanges 0x108 0x10 := by
  intro x h1 h2
  by_cases h : x < 0x110
  · exact ⟨⟨0x100, 0x10⟩, by decide, by show 0x100 ≤ x; omega, by show x < 0x100 + 0x10; omega⟩
  · exact ⟨⟨0x110, 0x10⟩, by decide, by show 0x110 ≤ x; omega, by show x < 0x110 + 0x10; omega⟩
theorem test_pool_range_over_a_gap : ¬ inPool configOfThreeRanges 0x118 0x20 := by
  intro h
  obtain ⟨p, hp, h1, h2⟩ := h 0x120 (by decide) (by decide)
  simp only [configOfThreeRanges, List.mem_cons, List.not_mem_nil, or_false] at hp
  rcases hp with rfl | rfl | rfl <;> simp at h1 h2

/-- U5: the engine may write DES0 back after EV_COMPLETE too, but not before EV_ENABLED, and never DES1. -/
theorem test_write_back_into_des0 :
    inputRespectsChains (stateIn .done) (.extWrite 0x40100013 0x00) ∧
      ¬ inputRespectsChains (stateIn .built) (.extWrite 0x40100013 0x00) ∧
      ¬ inputRespectsChains (stateIn .done) (.extWrite 0x40100014 0x00) := by
  refine ⟨fun k h => ?_, fun h => absurd (h .db0) (by decide), fun h => absurd (h .db0) (by decide)⟩
  cases k
  · exact .inr (.inr (by decide))
  · exact absurd rfl h
  · exact absurd rfl h

theorem witness_StepNeverWritesTheParameters : ∃ t, step (State.reset.withFetchWord 32 0x00030001) = .next t := ⟨_, rfl⟩

theorem witness_AbsentInstanceStopsTheRun :
    stateOfTwo.cfg.nDb = .two ∧ builderOf (.release .db2) = some .db2 ∧
      ({ stateOfTwo with inputs := [.send (.db .db2) []] } : State).inputs = [.send (.db .db2) []] ∧
      ({ stateOfTwo with inputs := [.perform (.db .db2)] } : State).inputs = [.perform (.db .db2)] ∧
      ({ stateOfTwo with inputs := [.reset (.db .db2)] } : State).inputs = [.reset (.db .db2)] := by decide

theorem witness_EccBitsAreMaskedParities :
    [EccMasks.standard.p0, EccMasks.standard.p1, EccMasks.standard.p2, EccMasks.standard.p3, EccMasks.standard.p4,
        EccMasks.standard.p5][0]? = some 0xF12CB7 ∧
      [EccMasks.standard.p0, EccMasks.standard.p1, EccMasks.standard.p2, EccMasks.standard.p3, EccMasks.standard.p4,
        EccMasks.standard.p5][5]? = some 0xEFFC00 := by decide

theorem witness_EccColumnsTellOneFlippedBit : (0 : Nat) < 24 ∧ 23 < 24 := by decide
theorem witness_CrcTableRoutineEqualsBitwise : (0 : Nat) < 256 ∧ 255 < 256 := by decide

/-- ShortOutputsFourBytes and the third clause of PacketReaderInvertsFraming: a successful output of each operation. -/
theorem witness_ShortOutputsFourBytes :
    (∃ t, exec (.short [0x11]) State.reset = .next t ∧ t.fr0.rsp.status = 0x00) ∧
      (∃ t, exec (.long []) State.reset = .next t ∧ t.fr0.rsp.status = 0x00) ∧
      (∃ t, exec (.frame [0x36, 0x00]) State.reset = .next t ∧ t.fr0.rsp.status = 0x00) ∧
      ∃ t, exec (.sendcmd [0x11]) State.reset = .next t ∧ t.fr0.rsp.status = 0x00 :=
  ⟨⟨_, rfl, rfl⟩, ⟨_, rfl, rfl⟩, ⟨_, rfl, rfl⟩, _, rfl, rfl⟩

theorem witness_ShortFaultsOnOtherLengths :
    ([] : List Byte).length ≠ 1 ∧ ([] : List Byte).length ≠ 2 ∧ [(0x2A : Byte), 0x00, 0x00].length ≠ 1 ∧
      [(0x2A : Byte), 0x00, 0x00].length ≠ 2 := by decide

theorem witness_LongOutputsHeaderPayloadCrc :
    ([] : List Byte).length ≤ 65535 ∧ (zeros 65535).length ≤ 65535 := by
  simp only [zeros_length]
  decide

/-- FramedLengthAndTagFollowTheDispatch and FrameOperationResult: the lengths on both sides of the branch, and the last. -/
theorem witness_FramedLengthAndTagFollowTheDispatch :
    (1 ≤ [(0x11 : Byte)].length ∧ [(0x11 : Byte)].length ≤ 65535) ∧
      (1 ≤ [(0x36 : Byte), 0x00].length ∧ [(0x36 : Byte), 0x00].length ≤ 65535) ∧
      (1 ≤ [(0x01 : Byte), 0x02, 0x03].length ∧ [(0x01 : Byte), 0x02, 0x03].length ≤ 65535 ∧
        3 ≤ [(0x01 : Byte), 0x02, 0x03].length) ∧
      (1 ≤ (zeros 65535).length ∧ (zeros 65535).length ≤ 65535) := by
  simp only [zeros_length]
  decide

/-- FramewOperationResult and TransmitWordsUnpackToThePacket. -/
theorem witness_FramewOperationResult :
    ((Instr.framew [0x11] = .framew [0x11] ∨ Instr.framew [0x11] = .sendcmd [0x11]) ∧ 1 ≤ [(0x11 : Byte)].length) ∧
      (1 ≤ (zeros 250).length ∧ (zeros 250).length ≤ 250) := by
  simp only [zeros_length]
  decide

theorem witness_FrameLengthFaults : 250 < (zeros 251).length := by
  simp only [zeros_length]
  decide

theorem witness_TransmitWordsUnpackToThePacket :
    (8 < [(0x39 : Byte), 0x03, 0x00, 0x09, 0x01, 0x02, 0x03, 0xC4, 0x62].length) ∧
      [(0x39 : Byte), 0x03, 0x00, 0x09, 0x01, 0x02, 0x03, 0xC4, 0x62].length ≤ 9 ∧
      9 < 4 * (([(0x39 : Byte), 0x03, 0x00, 0x09, 0x01, 0x02, 0x03, 0xC4, 0x62].length + 3) / 4) := by decide

theorem witness_EveryPacketCarriesItsEcc :
    ∃ t, exec (.short [0x11]) State.reset = .next t ∧ t.fr0.rsp.status = 0x00 := ⟨_, rfl, rfl⟩

theorem witness_FramerAnswersFromTheRequestAlone :
    answeredByFramer (.frame []) = true ∧ answeredByFramer (.reserved .fr0 0x00000000 []) = true ∧
      State.reset.cfg = Config.default := by decide

theorem witness_FramerFaultLeavesOnlyItsStatus :
    answeredByFramer (.frame []) = true ∧ answeredByFramer (.ecc 0x05 0x11 0x00) = true ∧
      ∃ t, exec (.frame []) State.reset = .next t ∧ t.fr0.rsp.status ≠ 0x00 := ⟨rfl, rfl, _, rfl, by decide⟩

theorem witness_OutputFormatBytes :
    (0x03 : Byte).toNat + 256 * (0x00 : Byte).toNat = [(0x01 : Byte), 0x02, 0x03].length ∧
      (0x00 : Byte).toNat + 256 * (0x00 : Byte).toNat = ([] : List Byte).length := by decide

/-- BuildRecordsTheChain, BuildWritesExactlyTheDescriptors, BuildHistoryIsWritesThenCoherence and the statements about
admitted operands: the smallest chain, the array up to 2^32, the array ending where the buffer starts. -/
theorem witness_BuildRecordsTheChain :
    Instr.buildFrom .db0 0x40000000 8 4 0x40100000 ∈ buildForms .fromDevice .db0 0x40000000 8 4 0x40100000 ∧
      Instr.buildW .db2 0x100 16 4 0xFFFFFFC0 ∈ buildForms .toDevice .db2 0x100 16 4 0xFFFFFFC0 ∧
      State.reset.cfg.hasDb .db2 = true ∧ (State.reset.db .db2).faulted = false ∧
      (State.reset.db .db2).chain.state = .empty ∧
      BuildAdmitted State.reset.cfg .db2 0x100 16 4 0xFFFFFFC0 ∧
      BuildAdmitted State.reset.cfg .db2 0x100 16 4 0xC0 ∧
      BuildAdmitted State.reset.cfg .db0 0x40000000 4 4 0x40100000 := by
  simp only [BuildAdmitted, chunks]
  decide

/-- ChunkSizesAreBounded and ChunksTileTheBuffer: a remainder, none, and first, inner and last chunks. -/
theorem witness_ChunkSizesAreBounded :
    BuildAdmitted .default .db0 0x40000000 4100 4096 0x40100000 ∧ (0 : Nat) < chunks 4100 4096 ∧ 1 < chunks 4100 4096 ∧
      0 + 1 < chunks 4100 4096 ∧ ¬ 1 + 1 < chunks 4100 4096 ∧
      BuildAdmitted .default .db0 0x40000000 65532 65532 0x40100000 := by
  simp only [BuildAdmitted, chunks]
  decide

/-- DescriptorAddressesAreValid and DescriptorAddressesStartAtSixteen: R201 admits DESC = 4. -/
theorem witness_DescriptorAddressesAreValid :
    BuildAdmitted .default .db0 0x100 4 4 4 ∧ (0 : Nat) < chunks 4 4 ∧
      BuildAdmitted .default .db0 0x100 8 4 0x10 ∧ (0 : Nat) + 1 < chunks 8 4 := by
  simp only [BuildAdmitted, chunks]
  decide

theorem witness_DefaultConfigWords : (2 : Nat) ≤ 3 ∧ (0 : Nat) < 1 ∧ 1 + 1 < 3 := by decide

/-- BuildReportsTheFirstOperandFault: for each clause, operands of section 2.5 that meet it. -/
theorem witness_BuildReportsTheFirstOperandFault :
    Instr.buildTo .db0 2 0 0 0 ∈ buildForms .toDevice .db0 2 0 0 0 ∧ State.reset.cfg.hasDb .db0 = true ∧
      (State.reset.db .db0).faulted = false ∧ (State.reset.db .db0).chain.state = .empty ∧
      checkOperands 65535 0 6 4 0x10 = some .chainLen ∧ checkOperands 65535 0 8 65536 0x10 = some .chainChunk ∧
      checkOperands 65535 0 8 4 0x12 = some .chainAlign ∧ checkOperands 65535 0x100 8 4 0xFFFFFFF0 = some .chainAddr ∧
      checkOperands 65535 0x100 16 4 0xF0 = some .chainOverlap ∧ checkOperands 65535 0x100 16 4 0xC0 = none := by decide

theorem witness_BuildWhileAChainExistsIsBusy :
    Instr.buildTo .db0 2 0 0 0 ∈ buildForms .toDevice .db0 2 0 0 0 ∧ (stateIn .hw).cfg.hasDb .db0 = true ∧
      ((stateIn .hw).db .db0).faulted = false ∧ ((stateIn .hw).db .db0).chain.state ≠ .empty := by decide

theorem witness_DescriptorWritesAreAligned :
    (∃ t, exec (.buildTo .db0 0x1000 4 4 0x100) State.reset = .next t ∧
      t.history = State.reset.history ++
        [.memWrite 0x100 0x8000001C, .memWrite 0x104 4, .memWrite 0x108 0x1000, .memWrite 0x10C 0,
          .coherence .flush 0x1000 4]) ∧
      Instr.buildR .db0 0 8 4 0x12 ∈ buildForms .fromDevice .db0 0 8 4 0x12 ∧ (8 : Word).toNat ≠ 0 ∧
      (8 : Word).toNat % 4 = 0 ∧ (4 : Word).toNat % 4 = 0 ∧ (4 : Word).toNat ≤ 2 ^ Config.default.sizeFieldBits .db0 - 1 ∧
      (0x12 : Word).toNat % 4 ≠ 0 := ⟨⟨_, rfl, rfl⟩, by decide⟩

theorem witness_ReleaseFreesTheChain :
    (stateIn .built).cfg.hasDb .db0 = true ∧ ((stateIn .built).db .db0).faulted = false ∧
      ((stateIn .built).db .db0).chain.state = .built ∧ ((stateIn .done).db .db0).faulted = false ∧
      ((stateIn .done).db .db0).chain.state = .done := by decide

theorem witness_NotificationsMoveTheOwnership :
    (stateIn .built).cfg.hasDb .db0 = true ∧ ((stateIn .built).db .db0).faulted = false ∧
      ((stateIn .built).db .db0).chain.state = .built ∧ ((stateIn .hw).db .db0).faulted = false ∧
      ((stateIn .hw).db .db0).chain.state = .hw := by decide
/-- The clause on what the requester reads: each notification where it succeeds. -/
theorem witness_NotificationsMoveTheOwnership_read :
    (∃ t, exec (.evEnabled .db0) (stateIn .built) = .next t ∧ (t.db .db0).rsp.status = 0x00) ∧
      ∃ t, exec (.evComplete .db0) (stateIn .hw) = .next t ∧ (t.db .db0).rsp.status = 0x00 :=
  ⟨⟨_, rfl, rfl⟩, _, rfl, rfl⟩

theorem witness_TransitionTable :
    State.reset.cfg.hasDb .db0 = true ∧ (State.reset.db .db0).faulted = false ∧
      ChainOp.Admits State.reset.cfg .db0 .release (.release .db0) ∧
      ChainOp.Admits State.reset.cfg .db0 .enabled (.evEnabled .db0) ∧
      ChainOp.Admits State.reset.cfg .db0 .complete (.evComplete .db0) ∧
      ChainOp.Admits State.reset.cfg .db0 .build (.buildTo .db0 0x1000 16 4 0x100) ∧
      stateFaulted.cfg.hasDb .db0 = true ∧ (stateFaulted.db .db0).faulted = true ∧
      builderOf (.buildR .db0 0 0 0 0) = some .db0 :=
  ⟨rfl, rfl, rfl, rfl, rfl,
    ⟨.toDevice, 0x1000, 16, 4, 0x100, by simp only [BuildAdmitted, chunks]; decide, by decide⟩, rfl, rfl, rfl⟩

theorem witness_BuilderFaultIsPrecise :
    builderOf (.release .db0) = some .db0 ∧
      (∃ t, exec (.release .db0) State.reset = .next t ∧ (t.db .db0).rsp.status ≠ 0x00) ∧
      ∃ t, exec (.release .db0) stateFaulted = .next t ∧ (t.db .db0).rsp.status ≠ 0x00 :=
  ⟨rfl, ⟨_, rfl, by decide⟩, _, rfl, by decide⟩

theorem witness_FaultStaysUntilReset :
    (({ stateFaulted with inputs := [.reset (.db .db1)] } : State).db .db0).faulted = true ∧
      (∃ t, step { stateFaulted with inputs := [.reset (.db .db1)] } = .next t) ∧
      ∀ rest, ({ stateFaulted with inputs := [.reset (.db .db1)] } : State).inputs ≠ .reset (.db .db0) :: rest :=
  ⟨rfl, ⟨_, rfl⟩, fun _ h => by simp at h⟩

theorem witness_BuilderInstancesAreIndependent :
    builderOf (.buildTo .db0 0x1000 4 4 0x100) = some .db0 ∧
      (∃ t, exec (.buildTo .db0 0x1000 4 4 0x100) State.reset = .next t ∧
        (0xFF < (t.db .db0).chain.base.toNat ∧
          (t.db .db0).chain.base.toNat + 16 * (t.db .db0).chain.count.toNat ≤ 0x110)) ∧
      ({ State.reset with db1 := (stateIn .hw).db0 } : State).cfg = State.reset.cfg ∧
      ({ State.reset with db1 := (stateIn .hw).db0 } : State).db .db0 = State.reset.db .db0 :=
  ⟨rfl, ⟨_, rfl, by decide⟩, rfl, rfl⟩

theorem witness_OnlyBuildReachesMemory :
    (∃ t, exec (.release .db0) (stateIn .done) = .next t) ∧
      ∀ dir k buf l m desc, Instr.release .db0 ∉ buildForms dir k buf l m desc := by
  refine ⟨⟨_, rfl⟩, fun dir k buf l m desc h => ?_⟩
  cases dir <;> simp [buildForms] at h

/-- The hardware gives the chain up by EV_COMPLETE, and by RESET. -/
theorem witness_HardwareKeepsTheChainUntilCompletionOrReset :
    ((stateIn .hw).db .db0).chain.state = .hw ∧
      (∃ t, step ((stateIn .hw).withFetchWord 32 0x00000013) = .next t ∧ (t.db .db0).chain.state ≠ .hw) ∧
      ∃ t, step { stateIn .hw with inputs := [.reset (.db .db0)] } = .next t ∧ (t.db .db0).chain.state ≠ .hw :=
  ⟨rfl, ⟨_, rfl, by decide⟩, _, rfl, by decide⟩

theorem witness_WordWritesAreLittleEndian :
    (0xFFFFFFFC : Word).toNat % 4 = 0 ∧ (0 : Nat) < (0xFFFFFFFC : Word).toNat ∧ State.reset.mem.wf := by decide

end Sys2Proof.Tests
end

/-! PROOFS. The statements on what the block does at its ports and what BUILD adds to the event history
(StepPerformsTheLatchedRequest, IdleBlockStaysAsItIs, BuildHistoryIsWritesThenCoherence), and the lemmas about turns and
about an admitted BUILD that they rest on. -/

namespace Sys2Proof.Proofs

open Sys2Proof Sys2Proof.Machine Sys2Proof.Claims

/-! ## Turns -/

/-- The turn of an instance whose latches hold a request: it is consumed and performed (R18, R33). -/
theorem serve_latched {u : UnitId} {s : State} {r : Request} (h : (s.port u).latch = some r) :
    serve u s = exec (decode u r) (s.consume u) := by
  simp [serve, h]

/-- An input that gives an existing instance its turn. -/
theorem step_perform {u : UnitId} {s : State} {rest : List Input} (hu : s.cfg.hasUnit u = true)
    (hin : s.inputs = .perform u :: rest) : step s = serve u { s with inputs := rest } := by
  simp [step, hin, takeInput, hu]

/-- With no input pending, the first instance with work has its turn. -/
theorem step_nextServed {u : UnitId} {s : State} (hin : s.inputs = []) (hu : s.nextServed = some u) :
    step s = serve u s := by
  simp [step, hin, hu]

/-- With no input pending and no instance to serve, the state stays. -/
theorem step_idle {s : State} (hin : s.inputs = []) (hu : s.nextServed = none) : step s = .next s := by
  simp [step, hin, hu]

/-- An instance has work when it exists and a request is in its latches or a whole one waits at its port. -/
theorem hasWork_iff (s : State) (u : UnitId) :
    s.hasWork u = true ↔ s.cfg.hasUnit u = true ∧
      ((s.port u).latch ≠ none ∨ ∃ r rest, parseRequest u (s.port u).wire = .ok (r, rest)) := by
  cases hp : parseRequest u (s.port u).wire with
  | ok p =>
    obtain ⟨r, rest⟩ := p
    simp [State.hasWork, hp]
  | error e => simp [State.hasWork, hp, Option.isSome_iff_ne_none]

/-- No instance is served exactly when none has work: the service order lists every instance. -/
theorem nextServed_eq_none_iff (s : State) : s.nextServed = none ↔ ∀ u, s.hasWork u ≠ true := by
  have every : ∀ u, u ∈ serviceOrder := fun u => by
    cases u with
    | fr0 => decide
    | db k => cases k <;> decide
  simp [State.nextServed, List.find?_eq_none, every]

/-- Settles O9: both ways to a turn serve the instance, and serving it performs the request in its latches. -/
theorem stepPerformsTheLatchedRequest : Obligations.StepPerformsTheLatchedRequest := by
  unfold Obligations.StepPerformsTheLatchedRequest
  rintro s u r i hr rfl hu
  refine ⟨fun rest hin => ?_, fun hin hnext => ?_⟩
  · have hr' : (({ s with inputs := rest } : State).port u).latch = some r := by simpa using hr
    rw [step_perform hu hin, serve_latched hr', State.consume, State.port_with_inputs]
  · rw [step_nextServed hin hnext, serve_latched hr, State.consume]

/-- Settles O14: empty latches and no whole request at any existing instance leave no instance with work. -/
theorem idleBlockStaysAsItIs : Obligations.IdleBlockStaysAsItIs := by
  unfold Obligations.IdleBlockStaysAsItIs
  intro s hin hidle
  refine step_idle hin ((nextServed_eq_none_iff s).2 fun u hwork => ?_)
  obtain ⟨hu, hheld⟩ := (hasWork_iff s u).1 hwork
  obtain ⟨hlatch, e, herr⟩ := hidle u hu
  rcases hheld with hlatched | ⟨r, rest, hwhole⟩
  · exact hlatched hlatch
  · rw [herr] at hwhole
    cases hwhole

/-! ## An admitted BUILD -/

/-- The operands that the statements call admitted are those that pass the checks of R201. -/
theorem buildAdmitted_iff_checkOperands {c : Config} {k : DbId} {buf l m desc : Word} :
    BuildAdmitted c k buf l m desc ↔
      checkOperands (sizeMax c k) buf.toNat l.toNat m.toNat desc.toNat = none :=
  checkOperands_none.symm

/-- Every form of BUILD, in state EMPTY without an earlier fault and on admitted operands, takes its effect (R200). -/
theorem exec_buildForm_admitted {s : State} {k : DbId} {dir : Dir} {buf l m desc : Word} {i : Instr}
    (hi : i ∈ buildForms dir k buf l m desc) (hk : s.cfg.hasDb k = true) (hf : (s.db k).faulted = false)
    (he : (s.db k).chain.state = .empty) (ha : BuildAdmitted s.cfg k buf l m desc) :
    exec i s = .next (s.dbCommit k (buildEffect s.cfg.descLayout dir buf l m desc)) := by
  rw [(exec_buildForm hi s).2]
  exact dbOperation_ok hk hf (buildOp_builds he (buildAdmitted_iff_checkOperands.1 ha))

/-- The write events of a chain are those of its descriptors, in ascending index (R203, R204). -/
theorem chainWrites_events (y : DescLayout) (buf l m desc : Nat) :
    (chainWrites y buf l m desc).map (fun w => Event.memWrite w.1 w.2) =
      (List.range (ceilDiv l m)).flatMap fun n =>
        (descWrites y buf l m desc (ceilDiv l m) n).map fun w => Event.memWrite w.1 w.2 := by
  rw [chainWrites, List.map_flatMap]

/-- R209's event with its cache operation written out. -/
theorem coherenceEvent_eq (dir : Dir) (buf l : Word) :
    coherenceEvent dir buf l =
      .coherence (match dir with | .toDevice => .flush | .fromDevice => .invalidate) buf l := by
  cases dir <;> rfl

/-- Settles O43: the commit of BUILD's effect appends its write events and then its one coherence event. -/
theorem buildHistoryIsWritesThenCoherence : Obligations.BuildHistoryIsWritesThenCoherence := by
  unfold Obligations.BuildHistoryIsWritesThenCoherence
  intro s k dir buf l m desc i hi hk hf he ha
  refine ⟨_, exec_buildForm_admitted hi hk hf he ha, ?_⟩
  rw [State.dbCommit_history]
  simp only [buildEffect, chainWrites_events, coherenceEvent_eq]
  -- `chunks` is `ceilDiv`, and the words of each descriptor are those of `descWrites`, by definition
  rfl

end Sys2Proof.Proofs

/-! PROOFS. The statements on the machine's state (StepKeepsInvariant, WaitingRequestsReachTheLatchesInOrder,
CutShortRequestStaysHeld, StepNeverWritesTheParameters, FramerAnswersFromTheRequestAlone, SentBytesWaitAtThePort,
ExternalWriteChangesOneByte, ResetSatisfiesInvariant, AbsentInstanceStopsTheRun): what each update of the state needs to
keep the invariant, and the lemmas about requests at the ports. -/

namespace Sys2Proof.Proofs

open Sys2Proof Sys2Proof.Machine Sys2Proof.Claims

/-! ## What an update needs to keep the invariant -/

/-- The invariant, with the three builders taken together. -/
theorem inv_iff (s : State) :
    s.Inv ↔ s.cfg.wf ∧ s.fr0.wf ∧ (∀ k, (s.db k).wf (sizeMax s.cfg k)) ∧ s.mem.wf := by
  constructor
  · rintro ⟨hcfg, hfr, h0, h1, h2, hmem⟩
    refine ⟨hcfg, hfr, fun k => ?_, hmem⟩
    cases k with
    | db0 => exact h0
    | db1 => exact h1
    | db2 => exact h2
  · rintro ⟨hcfg, hfr, hdb, hmem⟩
    exact ⟨hcfg, hfr, hdb .db0, hdb .db1, hdb .db2, hmem⟩

/-- The pending inputs are no part of the invariant. -/
theorem inv_with_inputs {s : State} (h : s.Inv) (l : List Input) : ({ s with inputs := l } : State).Inv := h

theorem inv_with_fr0 {s : State} (h : s.Inv) {f : FrUnit} (hf : f.wf) : ({ s with fr0 := f } : State).Inv := by
  obtain ⟨hcfg, -, hrest⟩ := h
  exact ⟨hcfg, hf, hrest⟩

theorem inv_with_mem {s : State} (h : s.Inv) {m : Memory} (hm : m.wf) (e : List Event) :
    ({ s with mem := m, history := e } : State).Inv := by
  obtain ⟨hcfg, hfr, h0, h1, h2, -⟩ := h
  exact ⟨hcfg, hfr, h0, h1, h2, hm⟩

theorem inv_setDb {s : State} (h : s.Inv) {k : DbId} {d : DbUnit} (hd : d.wf (sizeMax s.cfg k)) :
    (s.setDb k d).Inv := by
  obtain ⟨hcfg, hfr, hdb, hmem⟩ := (inv_iff s).1 h
  refine (inv_iff _).2 ⟨by simpa using hcfg, by simpa using hfr, fun j => ?_, by simpa using hmem⟩
  rw [State.setDb_cfg, State.setDb_db]
  split
  · next hj => rw [hj]; exact hd
  · exact hdb j

/-- What the invariant says of one builder. -/
theorem inv_db {s : State} (h : s.Inv) (k : DbId) : (s.db k).wf (sizeMax s.cfg k) := by
  obtain ⟨-, -, hdb, -⟩ := (inv_iff s).1 h
  exact hdb k

theorem inv_port {s : State} (h : s.Inv) (u : UnitId) : (s.port u).wf := by
  cases u with
  | fr0 =>
    obtain ⟨-, ⟨hport, -⟩, -⟩ := h
    exact hport
  | db k =>
    obtain ⟨hport, -⟩ := inv_db h k
    exact hport

theorem inv_setPort {s : State} (h : s.Inv) (u : UnitId) {p : Port} (hp : p.wf) : (s.setPort u p).Inv := by
  cases u with
  | fr0 =>
    obtain ⟨-, ⟨-, hrsp⟩, -⟩ := id h
    exact inv_with_fr0 h ⟨hp, hrsp⟩
  | db k =>
    obtain ⟨-, hrest⟩ := inv_db h k
    exact inv_setDb h ⟨hp, hrest⟩

theorem inv_setRsp {s : State} (h : s.Inv) (u : UnitId) {r : Rsp} (hr : r.wf) : (s.setRsp u r).Inv := by
  cases u with
  | fr0 =>
    obtain ⟨-, ⟨hport, -⟩, -⟩ := id h
    exact inv_with_fr0 h ⟨hport, hr⟩
  | db k =>
    obtain ⟨hport, -, hrest⟩ := inv_db h k
    exact inv_setDb h ⟨hport, hr, hrest⟩

/-! ## Ports and their requests -/

/-- A port holds a well-formed request exactly when the one in its latches has the data bytes its LEN counts. -/
theorem port_wf_iff (p : Port) : p.wf ↔ ∀ r, p.latch = some r → r.data.length = cwLen r.cw := by
  obtain ⟨latch, wire⟩ := p
  cases latch <;> simp [Port.wf]

theorem inv_consume {s : State} (h : s.Inv) (u : UnitId) : (s.consume u).Inv :=
  inv_setPort h u ((port_wf_iff _).2 fun _ hr => nomatch hr)

theorem inv_receive {s : State} (h : s.Inv) (u : UnitId) (bytes : List Byte) : (s.receive u bytes).Inv :=
  inv_setPort h u ((port_wf_iff _).2 fun r hr => (port_wf_iff _).1 (inv_port h u) r hr)

/-- A request the parser reads has LEN data bytes, so it may stand in the latches. -/
theorem inv_latchNext {s : State} (h : s.Inv) (u : UnitId) : (s.latchNext u).Inv := by
  rcases s.latchNext_cases u with hsame | ⟨r, rest, hparse, hset⟩
  · rw [hsame]
    exact h
  · rw [hset]
    refine inv_setPort h u ((port_wf_iff _).2 fun r' hr' => ?_)
    cases hr'
    exact parseRequest_data hparse

/-- A held request stands for a well-formed instruction (R33, R92). -/
theorem decode_wf {u : UnitId} {r : Request} (hlen : r.data.length = cwLen r.cw) : (decode u r).wf = true := by
  have hmax : r.data.length ≤ maxLenField := hlen ▸ cwLen_le r.cw
  unfold decode
  split
  · next hm => simp [Instr.wf, hm, hlen]
  · next hm =>
    unfold cwMalformed at hm
    cases ho : opOfOpsel (cwOpsel r.cw) with
    | none => simp [ho] at hm
    | some op =>
      cases u with
      | fr0 =>
        cases op
        case ecc =>
          have h3 : r.data.length = 3 := by simp_all
          obtain ⟨h0, h1, h2, hdata⟩ := List.length_eq_three.1 h3
          simp [instrOfOp, hdata, Instr.wf]
        all_goals simp_all [instrOfOp, opIsDb, unitIsDb, Instr.wf]
      | db k =>
        cases op
        case build =>
          simp only [instrOfOp]
          split <;> rfl
        all_goals simp_all [instrOfOp, opIsDb, unitIsDb, Instr.wf]

/-! ## The framer's responses -/

theorem statusCode_mem (c : Status) : statusCode c ∈ statusCodes := by cases c <;> decide

/-- The response of a fault is the code alone (R34). -/
theorem rsp_faulted_wf (c : Status) : (Rsp.faulted c).wf :=
  ⟨statusCode_mem c, by simp [Rsp.faulted, Rsp.empty], by simp [Rsp.faulted, Rsp.empty], fun _ => rfl⟩

/-- A response without a fault need only keep the sequences within R34. -/
theorem rsp_wf_of_ok {r : Rsp} (hs : r.status = 0x00) (hb : r.bytes.length ≤ 65541) (hw : r.words.length ≤ 64) :
    r.wf :=
  ⟨by rw [hs]; decide, hb, hw, fun h => absurd hs h⟩

theorem shortRsp_wf {p : List Byte} (h : p.length = 4) : (shortRsp p).wf :=
  rsp_wf_of_ok rfl (by simp [shortRsp, h]) (by simp [shortRsp, Rsp.empty])

theorem longRsp_wf (ms : EccMasks) {data : List Byte} (h : data.length ≤ maxLenField) : (longRsp ms data).wf := by
  have hlen := longPacket_length ms data
  unfold maxLenField at h
  exact rsp_wf_of_ok rfl (by simp only [longRsp]; omega) (by simp [longRsp, Rsp.empty])

theorem framePacket_length_le (ms : EccMasks) {data : List Byte} (h0 : data.length ≠ 0)
    (h : data.length ≤ maxLenField) : (framePacket ms data).length ≤ 65541 := by
  rw [framePacket_length ms data (by omega)]
  unfold maxLenField at h
  split <;> omega

theorem frameRsp_wf (ms : EccMasks) {data : List Byte} (h0 : data.length ≠ 0) (h : data.length ≤ maxLenField) :
    (frameRsp ms data).wf :=
  rsp_wf_of_ok rfl (framePacket_length_le ms h0 h) (by simp [frameRsp, Rsp.empty])

/-- A packet that fits the transmit buffer is at most 64 words. -/
theorem framewRsp_wf (ms : EccMasks) {data : List Byte} (h0 : data.length ≠ 0) (h : data.length ≤ maxLenField)
    (hfits : ¬ (framePacket ms data).length > txbufBytes) : (framewRsp ms data).wf := by
  refine rsp_wf_of_ok rfl (framePacket_length_le ms h0 h) ?_
  unfold txbufBytes at hfits
  simp only [framewRsp, packWords_length]
  omega

/-- What FRAMEW and SENDCMD answer a payload that fits the LEN field: one of R176's two faults, or the packet. -/
theorem framerRsp_framew_wf (ms : EccMasks) {data : List Byte} (h : data.length ≤ maxLenField) :
    (framerRsp ms (.framew data)).wf := by
  simp only [framerRsp]
  split
  · exact rsp_faulted_wf _
  · next h0 =>
    split
    · exact rsp_faulted_wf _
    · next hfits => exact framewRsp_wf ms h0 h hfits

/-- What the framer answers a well-formed instruction is a response R34 allows. -/
theorem framerRsp_wf (ms : EccMasks) {i : Instr} (hi : i.wf = true) : (framerRsp ms i).wf := by
  cases i
  case short data =>
    match data with
    | [] => exact rsp_faulted_wf _
    | [_] => exact shortRsp_wf rfl
    | [_, _] => exact shortRsp_wf rfl
    | _ :: _ :: _ :: _ => exact rsp_faulted_wf _
  case long data => exact longRsp_wf ms (of_decide_eq_true hi)
  case frame data =>
    simp only [framerRsp]
    split
    · exact rsp_faulted_wf _
    · next h0 => exact frameRsp_wf ms h0 (of_decide_eq_true hi)
  case framew data => exact framerRsp_framew_wf ms (of_decide_eq_true hi)
  case sendcmd data => exact framerRsp_framew_wf ms (of_decide_eq_true hi)
  case pkt05 => exact shortRsp_wf rfl
  case pkt15 => exact shortRsp_wf rfl
  case pkt39 payload => exact longRsp_wf ms (of_decide_eq_true hi)
  case reserved => exact rsp_faulted_wf _
  all_goals exact rsp_wf_of_ok rfl (by simp [framerRsp, Rsp.empty, crcTrailer]) (by simp [framerRsp, Rsp.empty])

/-! ## The builders -/

/-- R36 in state EMPTY. -/
theorem chain_empty_wf (smax : Nat) : ChainRegs.empty.wf smax := ⟨fun _ => rfl, fun h => absurd rfl h⟩

/-- The registers after an admitted BUILD describe its chain (R200, R201). -/
theorem buildEffect_chain_wf {smax : Nat} {y : DescLayout} {dir : Dir} {buf l m desc : Word}
    (h : checkOperands smax buf.toNat l.toNat m.toNat desc.toNat = none) :
    (buildEffect y dir buf l m desc).chain.wf smax := by
  obtain ⟨⟨hl, hl4⟩, ⟨hm, hm4, hmax⟩, ⟨hbuf4, hdesc4⟩, ⟨hdesc, harray, hbuffer⟩, hapart⟩ := checkOperands_none.1 h
  have hcount := ceilDiv_toNat harray
  have hpos := ceilDiv_pos (Nat.pos_of_ne_zero hl) (Nat.pos_of_ne_zero hm)
  have hdesc0 : desc ≠ 0 := fun e => hdesc (by rw [e]; rfl)
  have hl0 : l ≠ 0 := fun e => hl (by rw [e]; rfl)
  refine ⟨(fun he => nomatch he), fun _ => ?_⟩
  simp only [buildEffect, hcount, ChainRegs.describesChain]
  exact ⟨hdesc0, hpos, hl0, hdesc4, hbuf4, hl4, harray, hbuffer, hapart.symm, m.toNat, hm, hm4, hmax, rfl⟩

/-- A notification changes the chain's state alone, so the registers describe the chain they described (R215, R219). -/
theorem chain_wf_with_state {smax : Nat} {c : ChainRegs} (hc : c.wf smax) (hs : c.state ≠ .empty) {st : ChainState}
    (hst : st ≠ .empty) : ({ c with state := st } : ChainRegs).wf smax := by
  obtain ⟨-, hchain⟩ := hc
  exact ⟨fun he => absurd he hst, fun _ => hchain hs⟩

/-- The registers a builder's effect leaves are a chain's or all zero (R36). -/
theorem builderOp_chain_wf {c : Config} {i : Instr} {k : DbId} {d : DbUnit} {e : DbEffect} (hk : builderOf i = some k)
    (he : builderOp c i d = .ok e) (hd : d.chain.wf (sizeMax c k)) : e.chain.wf (sizeMax c k) := by
  rcases builderOp_ok hk he with
    ⟨dir, buf, l, m, desc, -, -, hcheck, rfl⟩ | ⟨-, -, rfl⟩ | ⟨-, hbuilt, rfl⟩ | ⟨-, hhw, rfl⟩
  · exact buildEffect_chain_wf hcheck
  · exact chain_empty_wf _
  · exact chain_wf_with_state hd (by rw [hbuilt]; decide) (by decide)
  · exact chain_wf_with_state hd (by rw [hhw]; decide) (by decide)

/-- The writes of a builder's effect keep memory canonical: those of BUILD lie in the address space, the others have none
(R60, R71). -/
theorem builderOp_writes_wf {c : Config} {i : Instr} {k : DbId} {d : DbUnit} {e : DbEffect} (hk : builderOf i = some k)
    (he : builderOp c i d = .ok e) {mem : Memory} (hm : mem.wf) : (mem.writeAll e.writes).wf := by
  rcases builderOp_ok hk he with
    ⟨dir, buf, l, m, desc, -, -, hcheck, rfl⟩ | ⟨-, -, rfl⟩ | ⟨-, -, rfl⟩ | ⟨-, -, rfl⟩
  · obtain ⟨-, -, -, ⟨-, harray, -⟩, -⟩ := checkOperands_none.1 hcheck
    exact wf_chainWrites hm harray
  all_goals exact hm

/-- A fault step keeps the invariant when its code may stand in `DB.FAULT_CODE`: the first fault records it, F_STICKY
leaves the one recorded (R253). -/
theorem inv_dbFault {s : State} (h : s.Inv) {k : DbId} {c : Status}
    (hc : (s.db k).faulted = true ∨ (c ≠ .sticky ∧ statusCode c ∈ dbFaultCodes)) : (s.dbFault k c).Inv := by
  obtain ⟨hport, -, hchain, hfault⟩ := inv_db h k
  refine inv_setDb h ⟨hport, rsp_faulted_wf c, hchain, ?_⟩
  cases hf : (s.db k).faulted with
  | true => simpa [DbUnit.faultWf, hf] using hfault
  | false =>
    obtain ⟨hne, hmem⟩ : c ≠ .sticky ∧ statusCode c ∈ dbFaultCodes := by simpa [hf] using hc
    simpa [DbUnit.faultWf, hne] using hmem

/-- A commit keeps the invariant when the effect's registers and writes do. -/
theorem inv_dbCommit {s : State} (h : s.Inv) {k : DbId} {e : DbEffect} (hchain : e.chain.wf (sizeMax s.cfg k))
    (hmem : (s.mem.writeAll e.writes).wf) : (s.dbCommit k e).Inv := by
  obtain ⟨hport, -, -, hfault⟩ := inv_db h k
  rw [State.dbCommit_eq]
  exact inv_setDb (inv_with_mem h hmem _)
    ⟨hport, rsp_wf_of_ok rfl (by simp [Rsp.empty]) (by simp [Rsp.empty]), hchain, hfault⟩

/-! ## Every step keeps the invariant -/

/-- Performing a well-formed instruction keeps the invariant. -/
theorem exec_keeps_inv {i : Instr} {s t : State} (hi : i.wf = true) (hs : s.Inv) (h : exec i s = .next t) : t.Inv := by
  rcases exec_next h with ⟨-, rfl⟩ | ⟨k, _, _, -, -, rfl⟩ |
    ⟨k, hk, -, ⟨hf, rfl⟩ | ⟨f, -, herr, rfl⟩ | ⟨e, -, hok, rfl⟩⟩
  · exact inv_setRsp hs .fr0 (framerRsp_wf _ hi)
  · exact inv_setRsp hs (.db k) (rsp_faulted_wf _)
  · exact inv_dbFault hs (.inl hf)
  · exact inv_dbFault hs (.inr (builderOp_error hk herr))
  · obtain ⟨-, -, hchain, -⟩ := inv_db hs k
    obtain ⟨-, -, -, hmem⟩ := (inv_iff s).1 hs
    exact inv_dbCommit hs (builderOp_chain_wf hk hok hchain) (builderOp_writes_wf hk hok hmem)

/-- Serving an instance keeps the invariant: the request it performs is a held one, so a well-formed instruction. -/
theorem serve_keeps_inv {u : UnitId} {s t : State} (hs : s.Inv) (h : serve u s = .next t) : t.Inv := by
  rcases serve_next h with ⟨r, hr, hexec⟩ | ⟨-, rfl⟩
  · exact exec_keeps_inv (decode_wf ((port_wf_iff _).1 (inv_port hs u) r hr)) (inv_consume hs u) hexec
  · exact inv_latchNext hs u

/-- A builder after RESET meets its invariant (R280). -/
theorem dbUnit_reset_wf (smax : Nat) : DbUnit.reset.wf smax := ⟨by decide, by decide, chain_empty_wf smax, by decide⟩

theorem inv_resetUnit {s : State} (h : s.Inv) (u : UnitId) : (s.resetUnit u).Inv := by
  cases u with
  | fr0 => exact inv_with_fr0 h (by decide)
  | db k => exact inv_setDb h (dbUnit_reset_wf _)

theorem inv_extWrite {s : State} (h : s.Inv) (a : Word) (b : Byte) : (s.extWrite a b).Inv := by
  obtain ⟨-, -, -, hmem⟩ := (inv_iff s).1 h
  exact inv_with_mem h (Memory.wf_set hmem a.isLt b) s.history

/-- Settles O18: bytes sent, a turn, a RESET and another agent's write each keep the invariant. -/
theorem stepKeepsInvariant : Obligations.StepKeepsInvariant := by
  unfold Obligations.StepKeepsInvariant
  intro s t hs h
  rcases step_next h with ⟨u, bytes, rest, -, -, rfl⟩ | ⟨u, rest, -, -, hserve⟩ | ⟨u, rest, -, -, rfl⟩ |
    ⟨a, b, rest, -, rfl⟩ | ⟨u, -, -, hserve⟩ | ⟨-, -, rfl⟩
  · exact inv_receive (inv_with_inputs hs rest) u bytes
  · exact serve_keeps_inv (inv_with_inputs hs rest) hserve
  · exact inv_resetUnit (inv_with_inputs hs rest) u
  · exact inv_extWrite (inv_with_inputs hs rest) a b
  · exact serve_keeps_inv hs hserve
  · exact hs

/-- Settles O19: every instance is at its reset values and memory lists no byte. -/
theorem resetSatisfiesInvariant : Obligations.ResetSatisfiesInvariant :=
  ⟨by decide, by decide, dbUnit_reset_wf _, dbUnit_reset_wf _, dbUnit_reset_wf _, Memory.wf_nil⟩

/-! ## Waiting requests -/

/-- The turn of an instance with empty latches. -/
theorem serve_idle {u : UnitId} {s : State} (h : (s.port u).latch = none) : serve u s = .next (s.latchNext u) := by
  simp [serve, h]

theorem latchNext_of_ok {u : UnitId} {s : State} {r : Request} {later : List Byte}
    (h : parseRequest u (s.port u).wire = .ok (r, later)) :
    s.latchNext u = s.setPort u { latch := some r, wire := later } := by
  simp [State.latchNext, h]

theorem latchNext_of_error {u : UnitId} {s : State} {e : DecodeError}
    (h : parseRequest u (s.port u).wire = .error e) : s.latchNext u = s := by
  simp [State.latchNext, h]

/-- Every well-formed instruction's serialised request decodes to what it expands to. -/
theorem encode_roundTrip (i : Instr) : Laws.RoundTrip.Statement i := by
  cases i with
  | ecc h0 h1 h2 => exact Laws.RoundTrip.ecc h0 h1 h2
  | crc data => exact Laws.RoundTrip.crc data
  | short data => exact Laws.RoundTrip.short data
  | long data => exact Laws.RoundTrip.long data
  | frame data => exact Laws.RoundTrip.frame data
  | framew data => exact Laws.RoundTrip.framew data
  | buildTo k buf l m desc => exact Laws.RoundTrip.buildTo k buf l m desc
  | buildFrom k buf l m desc => exact Laws.RoundTrip.buildFrom k buf l m desc
  | release k => exact Laws.RoundTrip.release k
  | evEnabled k => exact Laws.RoundTrip.evEnabled k
  | evComplete k => exact Laws.RoundTrip.evComplete k
  | sendcmd data => exact Laws.RoundTrip.sendcmd data
  | buildW k buf l m desc => exact Laws.RoundTrip.buildW k buf l m desc
  | buildR k buf l m desc => exact Laws.RoundTrip.buildR k buf l m desc
  | pkt05 d0 => exact Laws.RoundTrip.pkt05 d0
  | pkt15 d0 d1 => exact Laws.RoundTrip.pkt15 d0 d1
  | pkt39 payload => exact Laws.RoundTrip.pkt39 payload
  | reserved u cw data => exact Laws.RoundTrip.reserved u cw data

/-- What decodes to an instruction is a whole request that stands for it. -/
theorem parseRequest_of_decodeBytes {u : UnitId} {bs rest : List Byte} {i : Instr}
    (h : decodeBytes u bs = .ok (i, rest)) : ∃ r, parseRequest u bs = .ok (r, rest) ∧ decode u r = i := by
  unfold decodeBytes at h
  split at h
  · next r rest' hparse =>
    cases h
    exact ⟨r, hparse, rfl⟩
  · cases h

/-- The request at the front of the bytes is the serialised one, whatever follows it. -/
theorem parseRequest_encode {u : UnitId} {i : Instr} {front : List Byte} (hi : i.wf = true)
    (he : encode i = some (u, front)) (later : List Byte) :
    ∃ r, parseRequest u (front ++ later) = .ok (r, later) ∧ decode u r = i.expand :=
  parseRequest_of_decodeBytes (encode_roundTrip i hi u front he later)

/-- More bytes behind a whole request are left to wait. -/
theorem parseRequest_append_ok {u : UnitId} {bs rest : List Byte} {r : Request}
    (h : parseRequest u bs = .ok (r, rest)) (more : List Byte) :
    parseRequest u (bs ++ more) = .ok (r, rest ++ more) := by
  obtain ⟨body, hlen, hr, rfl⟩ := parseRequest_ok h
  rw [List.append_assoc, parseRequest_append u r.cw body (rest ++ more) hlen, ← hr]

/-- A proper front of a serialised request is no whole request: a whole one in it would leave the remaining bytes waiting,
and the parser takes them all (R94). -/
theorem parseRequest_cutShort {u : UnitId} {i : Instr} {bytes : List Byte} {n : Nat} (hi : i.wf = true)
    (he : encode i = some (u, bytes)) (hn : n < bytes.length) : ∃ e, parseRequest u (bytes.take n) = .error e := by
  cases hparse : parseRequest u (bytes.take n) with
  | error e => exact ⟨e, rfl⟩
  | ok p =>
    obtain ⟨r, rest⟩ := p
    obtain ⟨r', hwhole, -⟩ := parseRequest_encode hi he []
    have hmore := parseRequest_append_ok hparse (bytes.drop n)
    rw [List.take_append_drop] at hmore
    rw [List.append_nil, hmore] at hwhole
    have hdrop : rest ++ bytes.drop n = [] := by
      injection hwhole with hpair
      injection hpair
    have := List.drop_eq_nil_iff.1 (List.append_eq_nil_iff.1 hdrop).2
    omega

/-- Settles O10: the turn of the idle instance parses the request it was sent and latches it. -/
theorem waitingRequestsReachTheLatchesInOrder : Obligations.WaitingRequestsReachTheLatchesInOrder := by
  unfold Obligations.WaitingRequestsReachTheLatchesInOrder
  intro s u i front later rest hi he hu hport hin
  obtain ⟨r, hparse, hdecode⟩ := parseRequest_encode hi he later
  refine ⟨r, hdecode, ?_⟩
  rw [step_perform hu hin, serve_idle (by simp [hport]), latchNext_of_ok (by simpa [hport] using hparse)]

/-- Settles O12: the turn of the idle instance finds no whole request in the front of one. -/
theorem cutShortRequestStaysHeld : Obligations.CutShortRequestStaysHeld := by
  unfold Obligations.CutShortRequestStaysHeld
  intro s u i bytes n rest hi he hn hu hport hin
  obtain ⟨e, herr⟩ := parseRequest_cutShort hi he hn
  rw [step_perform hu hin, serve_idle (by simp [hport]), latchNext_of_error (e := e) (by simpa [hport] using herr)]

/-- Settles O11: the input appends the bytes to those that wait. -/
theorem sentBytesWaitAtThePort : Obligations.SentBytesWaitAtThePort := by
  unfold Obligations.SentBytesWaitAtThePort
  intro s u bytes rest hu hin
  simp only [step, hin, takeInput, hu, if_true, State.receive, State.port_with_inputs]

/-! ## Parameters, the framer's answers, other agents' writes, absent instances -/

/-- Serving an instance leaves the parameters. -/
theorem serve_cfg {u : UnitId} {s t : State} (h : serve u s = .next t) : t.cfg = s.cfg := by
  rcases serve_next h with ⟨r, -, hexec⟩ | ⟨-, rfl⟩
  · rw [exec_cfg hexec, State.consume, State.setPort_cfg]
  · rcases s.latchNext_cases u with hsame | ⟨r, rest, -, hset⟩
    · rw [hsame]
    · rw [hset, State.setPort_cfg]

theorem resetUnit_cfg (s : State) (u : UnitId) : (s.resetUnit u).cfg = s.cfg := by
  cases u with
  | fr0 => rfl
  | db k => exact State.setDb_cfg s k .reset

/-- Settles O20: no input, no operation and no turn writes the parameters. -/
theorem stepNeverWritesTheParameters : Obligations.StepNeverWritesTheParameters := by
  unfold Obligations.StepNeverWritesTheParameters
  intro s t h
  rcases step_next h with ⟨u, bytes, rest, -, -, rfl⟩ | ⟨u, rest, -, -, hserve⟩ | ⟨u, rest, -, -, rfl⟩ |
    ⟨a, b, rest, -, rfl⟩ | ⟨u, -, -, hserve⟩ | ⟨-, -, rfl⟩
  · rw [State.receive, State.setPort_cfg]
  · exact serve_cfg (s := { s with inputs := rest }) hserve
  · rw [resetUnit_cfg]
  · rw [State.extWrite_eq]
  · exact serve_cfg hserve
  · rfl

/-- Settles O38: the response is `framerRsp` of the masks and the instruction, and completing it replaces the latches. -/
theorem framerAnswersFromTheRequestAlone : Obligations.FramerAnswersFromTheRequestAlone := by
  unfold Obligations.FramerAnswersFromTheRequestAlone
  rintro i c hi
  refine ⟨framerRsp c.eccMasks i, ?_⟩
  rintro s rfl
  rw [exec_framer hi, State.respond_eq]

/-- Settles O17: the write sets one byte of memory. -/
theorem externalWriteChangesOneByte : Obligations.ExternalWriteChangesOneByte := by
  unfold Obligations.ExternalWriteChangesOneByte
  intro s a b rest hin
  refine ⟨({ s with inputs := rest } : State).extWrite a b, ?_, rfl, Memory.get_set_same s.mem a.toNat b,
    fun a' ha' => Memory.get_set_ne s.mem b ha'⟩
  simp only [step, hin, takeInput]

/-- A builder operation of an instance that does not exist stops the run. -/
theorem dbOperation_absent {k : DbId} {op : DbUnit → Except Status DbEffect} {s : State}
    (hk : s.cfg.hasDb k = false) : dbOperation k op s = .fault (.noSuchUnit (.db k)) := by
  simp [dbOperation, hk]

/-- Settles O21: with two builders the third does not exist, and whatever is addressed to it asks for it first. -/
theorem absentInstanceStopsTheRun : Obligations.AbsentInstanceStopsTheRun := by
  unfold Obligations.AbsentInstanceStopsTheRun
  intro s htwo
  have hdb : s.cfg.hasDb .db2 = false := by simp [Config.hasDb, htwo]
  have hunit : s.cfg.hasUnit (.db .db2) = false := hdb
  refine ⟨fun i hi => ?_, fun cw data => ?_, fun rest bytes hin => ?_, fun rest hin => ?_, fun rest hin => ?_⟩
  · rw [exec_builder hi, dbOperation_absent hdb]
  · simp [exec, execReserved, hunit]
  all_goals simp [step, hin, takeInput, hunit]

end Sys2Proof.Proofs

/-! PROOFS. The statements on memory (DescriptorWritesAreAligned, OnlyBuildReachesMemory, WordWritesAreLittleEndian): one
lemma says what an instruction can do to memory and to the write events, and one what a BUILD answers whose operands fail a
check. -/

namespace Sys2Proof.Proofs

open Sys2Proof Sys2Proof.Machine Sys2Proof.Claims

/-! ## Who writes to memory -/

/-- An instruction that answers a next state either is an admitted BUILD and commits that BUILD's effect, or leaves memory
and adds no write event (R60). -/
theorem exec_build_or_writes_nothing {i : Instr} {s t : State} (h : exec i s = .next t) :
    (∃ dir k buf l m desc, i ∈ buildForms dir k buf l m desc ∧ BuildAdmitted s.cfg k buf l m desc ∧
        t = s.dbCommit k (buildEffect s.cfg.descLayout dir buf l m desc)) ∨
      (t.mem = s.mem ∧ ∃ es, t.history = s.history ++ es ∧ ∀ a v, Event.memWrite a v ∉ es) := by
  rcases exec_next h with ⟨-, rfl⟩ | ⟨k, _, _, -, -, rfl⟩ | ⟨k, hk, -, ⟨-, rfl⟩ | ⟨f, -, -, rfl⟩ | ⟨e, -, hok, rfl⟩⟩
  · exact .inr ⟨rfl, [], (List.append_nil _).symm, by simp⟩
  · exact .inr ⟨by simp, [], by simp, by simp⟩
  · exact .inr ⟨by simp, [], by simp, by simp⟩
  · exact .inr ⟨by simp, [], by simp, by simp⟩
  · rcases builderOp_ok hk hok with
      ⟨dir, buf, l, m, desc, hi, -, hcheck, rfl⟩ | ⟨-, -, rfl⟩ | ⟨-, -, rfl⟩ | ⟨-, -, rfl⟩
    · exact .inl ⟨dir, k, buf, l, m, desc, hi, buildAdmitted_iff_checkOperands.2 hcheck, rfl⟩
    -- RELEASE adds its Free event, the two notifications none
    · exact .inr ⟨by simp [Memory.writeAll], [.free (s.db k).chain.base], by simp, by simp⟩
    · exact .inr ⟨by simp [Memory.writeAll], [], by simp, by simp⟩
    · exact .inr ⟨by simp [Memory.writeAll], [], by simp, by simp⟩

/-- Settles O58: an instruction that writes is a BUILD. -/
theorem onlyBuildReachesMemory : Obligations.OnlyBuildReachesMemory := by
  unfold Obligations.OnlyBuildReachesMemory
  intro i s t h hno
  rcases exec_build_or_writes_nothing h with ⟨dir, k, buf, l, m, desc, hi, -⟩ | ⟨hmem, -⟩
  · exact absurd hi (hno dir k buf l m desc)
  · exact hmem

/-! ## Where a chain is written -/

/-- The words of an admitted BUILD are at multiples of 4: its DESC is one and its array lies in the address space (R65). -/
theorem chainWrites_aligned {c : Config} {k : DbId} {y : DescLayout} {buf l m desc : Word}
    (hadm : BuildAdmitted c k buf l m desc) {w : Word × Word}
    (hw : w ∈ chainWrites y buf.toNat l.toNat m.toNat desc.toNat) : w.1.toNat % 4 = 0 := by
  obtain ⟨-, -, ⟨-, halign⟩, ⟨-, hspace, -⟩, -⟩ := checkOperands_none.1 (buildAdmitted_iff_checkOperands.1 hadm)
  obtain ⟨n, hn, hw⟩ := mem_chainWrites hw
  obtain ⟨q, -, haddr⟩ := descWrites_addr hspace hn hw
  omega

/-- The write events among BUILD's are those of its chain's words. -/
theorem memWrite_mem_buildEvents {y : DescLayout} {dir : Dir} {buf l m desc a v : Word}
    (h : Event.memWrite a v ∈ ((buildEffect y dir buf l m desc).writes.map fun w => Event.memWrite w.1 w.2) ++
      (buildEffect y dir buf l m desc).events) :
    (a, v) ∈ chainWrites y buf.toNat l.toNat m.toNat desc.toNat := by
  cases dir <;> simpa [buildEffect, coherenceEvent] using h

/-! ## A BUILD whose operands fail a check -/

/-- The first fault of a builder since RESET records its code (R253). -/
theorem dbFault_eq_faultedState {s : State} {k : DbId} {c : Status} (hf : (s.db k).faulted = false) (hc : c ≠ .sticky) :
    s.dbFault k c = faultedState s k (statusCode c) := by
  rw [State.dbFault, if_pos ⟨hc, hf⟩]
  rfl

/-- Every form of BUILD, in state EMPTY without an earlier fault, answers the first check of R201 that fails and changes
nothing else but the fault registers. -/
theorem exec_buildForm_operandFault {s : State} {k : DbId} {dir : Dir} {buf l m desc : Word} {i : Instr} {f : Status}
    (hi : i ∈ buildForms dir k buf l m desc) (hk : s.cfg.hasDb k = true) (hf : (s.db k).faulted = false)
    (he : (s.db k).chain.state = .empty)
    (hcheck : checkOperands (sizeMax s.cfg k) buf.toNat l.toNat m.toNat desc.toNat = some f) :
    exec i s = .next (faultedState s k (statusCode f)) := by
  have hne : f ≠ .sticky := by
    rcases checkOperands_some hcheck with rfl | rfl | rfl | rfl | rfl <;> decide
  rw [(exec_buildForm hi s).2, dbOperation_error hk hf (buildOp_operandFault he hcheck), dbFault_eq_faultedState hf hne]

/-- With length and chunk size admitted, a misaligned BUF or DESC is the first check that fails (R201). -/
theorem checkOperands_chainAlign {smax buf l m desc : Nat} (hl : l ≠ 0 ∧ l % 4 = 0)
    (hm : m ≠ 0 ∧ m % 4 = 0 ∧ m ≤ smax) (halign : buf % 4 ≠ 0 ∨ desc % 4 ≠ 0) :
    checkOperands smax buf l m desc = some .chainAlign := by
  rw [checkOperands, if_neg (by omega), if_neg (by omega), if_pos halign]

/-- Settles O51: only an admitted BUILD writes, and it writes the words of an aligned array; a misaligned DESC fails the
third check. -/
theorem descriptorWritesAreAligned : Obligations.DescriptorWritesAreAligned := by
  unfold Obligations.DescriptorWritesAreAligned
  refine ⟨fun i s t a v added h hhist hw => ?_, fun s k dir buf l m desc i hi hk hf he hl hl4 hm hm4 hmax halign => ?_⟩
  · rcases exec_build_or_writes_nothing h with ⟨dir, k, buf, l, m, desc, -, hadm, rfl⟩ | ⟨-, es, hes, hnone⟩
    · rw [State.dbCommit_history, List.append_assoc] at hhist
      rw [← List.append_cancel_left hhist] at hw
      exact chainWrites_aligned hadm (memWrite_mem_buildEvents hw)
    · rw [List.append_cancel_left (hhist.symm.trans hes)] at hw
      exact absurd hw (hnone a v)
  · exact exec_buildForm_operandFault hi hk hf he
      (checkOperands_chainAlign ⟨hl, hl4⟩ ⟨hm, hm4, hmax⟩ (.inr halign))

/-! ## A word write -/

/-- A word at a multiple of 4 lies whole in the address space (R62). -/
theorem alignedWord_in_space {a : Word} (h : a.toNat % 4 = 0) : a.toNat + 3 < 2 ^ 32 := by
  have := a.isLt
  omega

/-- Settles O60: byte `j` of the word is at offset `j`, every other byte stays, and the four addresses are below 2^32. -/
theorem wordWritesAreLittleEndian : Obligations.WordWritesAreLittleEndian := by
  unfold Obligations.WordWritesAreLittleEndian
  intro s a v halign
  have byte : ∀ j, j < 4 → (s.memWrite a v).mem.get (a.toNat + j) = some (v.extractLsb' (8 * j) 8) :=
    fun j hj => Memory.get_write32_at s.mem a.toNat v hj
  exact ⟨byte 0 (by omega), byte 1 (by omega), byte 2 (by omega), byte 3 (by omega),
    fun a' ha' => Memory.get_write32_off s.mem v ha',
    fun hwf => Memory.wf_write32 hwf (alignedWord_in_space halign) v⟩

end Sys2Proof.Proofs

/-! PROOFS. The statements on encodings (CommandWordIsItsFourFields, CommandWordExamples, OpcodeTableWordsDecode,
MalformedWordsAnswerMalformedOnly, RequestsDecodeToOperationsOnly, DecodedRequestIsItsEncoding,
EncodedRequestDecodesToItsOperation): the command word's fields as numbers, the rows of R91 read as such, and the request
of what a request decodes to. -/

namespace Sys2Proof.Proofs

open Sys2Proof Sys2Proof.Machine Sys2Proof.Claims

/-! ## The fields of the command word as numbers (R90) -/

theorem cwOpsel_toNat (cw : Word) : (cwOpsel cw).toNat = cw.toNat % 256 := by
  simp [cwOpsel, BitVec.extractLsb'_toNat]

theorem cwDir_toNat (cw : Word) : (cwDir cw).toNat = cw.toNat / 256 % 2 := by
  rw [cwDir, BitVec.getLsbD, Nat.toNat_testBit]

theorem cwRsv_toNat (cw : Word) : (cwRsv cw).toNat = cw.toNat / 512 % 128 := by
  simp [cwRsv, BitVec.extractLsb'_toNat, Nat.shiftRight_eq_div_pow]

theorem cwLen_eq_div (cw : Word) : cwLen cw = cw.toNat / 65536 := by
  have hcw := cw.isLt
  rw [cwLen, BitVec.extractLsb'_toNat, Nat.shiftRight_eq_div_pow, Nat.mod_eq_of_lt (by omega)]

/-- Settles O1: with the fields as quotients and remainders of the word, the sum is arithmetic. -/
theorem commandWordIsItsFourFields : Obligations.CommandWordIsItsFourFields := by
  unfold Obligations.CommandWordIsItsFourFields
  intro cw
  have hopsel := cwOpsel_toNat cw
  have hdir := cwDir_toNat cw
  have hrsv := cwRsv_toNat cw
  have hlen := cwLen_eq_div cw
  exact ⟨hopsel, hdir, hrsv, hlen, by omega⟩

/-! ## Malformed words and the rows of R91 -/

/-- R92's first case: OPSEL selects no operation. -/
theorem cwMalformed_of_none {u : UnitId} {cw : Word} (ho : opOfOpsel (cwOpsel cw) = none) : cwMalformed u cw = true := by
  simp [cwMalformed, ho]

/-- The cases of R92 that are left when OPSEL selects an operation. -/
theorem cwMalformed_of_op {u : UnitId} {cw : Word} {op : Op} (ho : opOfOpsel (cwOpsel cw) = some op) :
    cwMalformed u cw = true ↔
      opIsDb op ≠ unitIsDb u ∨ cwRsv cw ≠ 0 ∨ (cwDir cw = true ∧ op ≠ .build) ∨ (op = .ecc ∧ cwLen cw ≠ 3) ∨
        (opIsDb op = true ∧ cwLen cw ≠ 0) := by
  simp [cwMalformed, ho, or_assoc]

/-- A word that is not malformed is a row of R91 at its instance, and its operation and fields make it up. -/
theorem row_of_not_malformed {u : UnitId} {cw : Word} (hm : cwMalformed u cw = false) :
    ∃ op, opOfOpsel (cwOpsel cw) = some op ∧ opIsDb op = unitIsDb u ∧
      cw = mkCw (opselOfOp op) (cwDir cw) (cwLen cw) ∧ (op ≠ .build → cwDir cw = false) ∧
      (op = .ecc → cwLen cw = 3) ∧ (opIsDb op = true → cwLen cw = 0) := by
  cases ho : opOfOpsel (cwOpsel cw) with
  | none =>
    rw [cwMalformed_of_none ho] at hm
    cases hm
  | some op =>
    have hcases := (cwMalformed_of_op (u := u) ho).not.1 (by simp [hm])
    push Not at hcases
    obtain ⟨hunit, hrsv, hdir, hecc, hlen⟩ := hcases
    refine ⟨op, rfl, hunit, ?_, fun hop => ?_, hecc, hlen⟩
    · rw [opselOfOp_of_some ho, mkCw_fields hrsv]
    · by_contra htrue
      exact hop (hdir (by simpa using htrue))

/-- Each OPSEL number of R92's lists is that of an operation of R91, of the unit the list is for. -/
theorem opsel_number (op : Op) :
    ((opselOfOp op).toNat ∈ [0x01, 0x02, 0x03, 0x04, 0x05, 0x06] ↔ opIsDb op = false) ∧
      ((opselOfOp op).toNat ∈ [0x10, 0x11, 0x12, 0x13] ↔ opIsDb op = true) ∧
      ((opselOfOp op).toNat = 0x10 ↔ op = .build) ∧ ((opselOfOp op).toNat = 0x01 ↔ op = .ecc) ∧
      (opselOfOp op).toNat ∈ [0x01, 0x02, 0x03, 0x04, 0x05, 0x06, 0x10, 0x11, 0x12, 0x13] := by
  cases op <;> decide

/-- An OPSEL selects no operation exactly when its number is in neither of R92's lists. -/
theorem opOfOpsel_eq_none_iff (b : Byte) :
    opOfOpsel b = none ↔ b.toNat ∉ [0x01, 0x02, 0x03, 0x04, 0x05, 0x06, 0x10, 0x11, 0x12, 0x13] := by
  revert b
  decide

/-- R92's second and third case: the operation is the other unit's. -/
theorem otherUnit_iff (op : Op) (u : UnitId) :
    opIsDb op ≠ unitIsDb u ↔ (u = .fr0 ∧ opIsDb op = true) ∨ (u ≠ .fr0 ∧ opIsDb op = false) := by
  cases u <;> simp [unitIsDb]

/-- The decoder's test for a malformed word is the six cases of R92. -/
theorem cwMalformed_iff_malformedAt (u : UnitId) (cw : Word) : cwMalformed u cw = true ↔ MalformedAt u cw := by
  simp only [MalformedAt, ← cwOpsel_toNat, ← cwDir_toNat, ← cwRsv_toNat, ← cwLen_eq_div]
  cases ho : opOfOpsel (cwOpsel cw) with
  | none => exact iff_of_true (cwMalformed_of_none ho) (.inl ((opOfOpsel_eq_none_iff _).1 ho))
  | some op =>
    obtain ⟨hfr, hdb, hbuild, hecc, hrow⟩ := opsel_number op
    have hrsv : (cwRsv cw).toNat = 0 ↔ cwRsv cw = 0 := by simp [← BitVec.toNat_inj]
    rw [cwMalformed_of_op ho, ← opselOfOp_of_some ho, otherUnit_iff]
    simp only [ne_eq, hfr, hdb, hbuild, hecc, hrow, hrsv, Bool.toNat_eq_one, not_true, false_or, or_assoc]

/-- A request is read as `reserved` exactly when its word is malformed: what is read is well-formed, so a `reserved` one
has a malformed word. -/
theorem decode_eq_reserved_iff {u : UnitId} {r : Request} (hlen : r.data.length = cwLen r.cw) :
    decode u r = .reserved u r.cw r.data ↔ cwMalformed u r.cw = true := by
  refine ⟨fun h => ?_, fun h => by simp [decode, h]⟩
  have hwf := decode_wf (u := u) hlen
  simp only [h, Instr.wf, Bool.and_eq_true] at hwf
  exact hwf.1

/-- What the reserved instruction does at an existing instance, whatever its word is (R92). -/
theorem exec_reserved {u : UnitId} {s : State} (hu : s.cfg.hasUnit u = true) (cw : Word) (data : List Byte) :
    exec (.reserved u cw data) s = .next (s.setRsp u (statusOnly 0x04)) := by
  simp only [exec, execReserved, hu, if_true, State.statusFault]
  rfl

/-- Settles O2: the decoder's test is R92's, and the reserved instruction replaces the response latches alone. -/
theorem malformedWordsAnswerMalformedOnly : Obligations.MalformedWordsAnswerMalformedOnly := by
  unfold Obligations.MalformedWordsAnswerMalformedOnly
  exact ⟨fun u r hlen => (decode_eq_reserved_iff hlen).trans (cwMalformed_iff_malformedAt u r.cw),
    fun _ cw data _ hu => exec_reserved hu cw data⟩

/-! ## What a request decodes to -/

/-- A request whose word is not malformed is read by its operation and its instance (R91). -/
theorem decode_row_of_op {u : UnitId} {r : Request} {op : Op} (hm : cwMalformed u r.cw = false)
    (ho : opOfOpsel (cwOpsel r.cw) = some op) : decode u r = instrOfOp op u r := by
  simp [decode, hm, ho]

/-- No row of R91 stands for a pseudo-instruction or an output format. -/
theorem instrOfOp_isOperation (op : Op) (u : UnitId) (r : Request) :
    (instrOfOp op u r).expand = instrOfOp op u r ∧ (instrOfOp op u r).isOutputFormat = false := by
  unfold instrOfOp
  repeat' split
  all_goals exact ⟨rfl, rfl⟩

/-- A request is read as an instruction that stands for itself and is a command. -/
theorem decode_isOperation (u : UnitId) (r : Request) :
    (decode u r).expand = decode u r ∧ (decode u r).isOutputFormat = false := by
  cases hm : cwMalformed u r.cw with
  | true =>
    rw [decode, if_pos hm]
    exact ⟨rfl, rfl⟩
  | false =>
    obtain ⟨op, ho, -⟩ := row_of_not_malformed hm
    rw [decode_row_of_op hm ho]
    exact instrOfOp_isOperation op u r

/-- Settles O7: a pseudo-instruction does not expand to itself. -/
theorem requestsDecodeToOperationsOnly : Obligations.RequestsDecodeToOperationsOnly := by
  unfold Obligations.RequestsDecodeToOperationsOnly
  intro u r
  obtain ⟨hexpand, hformat⟩ := decode_isOperation u r
  refine ⟨hexpand, hformat, fun data h => ?_, fun k buf l m desc h => ?_, fun k buf l m desc h => ?_⟩ <;>
  · rw [h] at hexpand
    cases hexpand

/-! ## What is read is what was encoded -/

/-- A body that is not BUILD's is the request's data. -/
theorem requestOf_plain {u : UnitId} {cw : Word} (hb : cwIsBuild u cw = false) (body : List Byte) :
    requestOf u cw body = { cw, data := body, buf := 0, l := 0, m := 0, desc := 0 } := by
  simp [requestOf, hb]

/-- The body of a malformed word is its data, as many bytes as LEN says (log entry 5). -/
theorem encode_decode_malformed {u : UnitId} {cw : Word} (hm : cwMalformed u cw = true) (body : List Byte) :
    encode (decode u (requestOf u cw body)) = some (u, leBytes cw ++ body) := by
  rw [requestOf_plain (by simp [cwIsBuild, hm]), decode, if_pos hm]
  rfl

/-- An operation of R91 other than BUILD encodes to its word with DIR 0, and its data. -/
theorem encode_instrOfOp_plain {op : Op} {u : UnitId} {r : Request} (hop : op ≠ .build) (hunit : opIsDb op = unitIsDb u)
    (hecc : op = .ecc → r.data.length = 3) (hdb : opIsDb op = true → r.data = []) :
    encode (instrOfOp op u r) = some (u, leBytes (mkCw (opselOfOp op) false r.data.length) ++ r.data) := by
  cases op
  case build => exact absurd rfl hop
  case ecc =>
    obtain ⟨h0, h1, h2, hdata⟩ := List.length_eq_three.1 (hecc rfl)
    cases u with
    | fr0 => simp [instrOfOp, hdata, encode, opselOfOp]
    | db k => cases hunit
  case release | evEnabled | evComplete =>
    cases u with
    | fr0 => cases hunit
    | db k => simp [instrOfOp, hdb rfl, encode, opselOfOp]
  all_goals
    cases u with
    | fr0 => rfl
    | db k => cases hunit

/-- BUILD encodes to its word with its DIR, and its four operand words. -/
theorem encode_instrOfOp_build (k : DbId) (r : Request) :
    encode (instrOfOp .build (.db k) r) =
      some (.db k, leBytes (mkCw (opselOfOp .build) (cwDir r.cw) 0) ++ buildBody r.buf r.l r.m r.desc) := by
  cases hd : cwDir r.cw <;> simp [instrOfOp, hd, encode, opselOfOp]

/-- The whole body of a request, put behind its word, is the encoding of what the request decodes to. -/
theorem encode_decode {u : UnitId} {cw : Word} {body : List Byte} (hlen : body.length = bodyLength u cw) :
    encode (decode u (requestOf u cw body)) = some (u, leBytes cw ++ body) := by
  cases hm : cwMalformed u cw with
  | true => exact encode_decode_malformed hm body
  | false =>
    obtain ⟨op, ho, hunit, hcw, hdir, hecc, hzero⟩ := row_of_not_malformed hm
    rw [decode_row_of_op (by simpa using hm) (by simpa using ho)]
    have hb : cwIsBuild u cw = (op == .build) := by simp [cwIsBuild, hm, ho]
    by_cases hop : op = .build
    · subst hop
      have hbody : body.length = 16 := by simpa [bodyLength, hb] using hlen
      cases u with
      | fr0 => cases hunit
      | db k =>
        rw [encode_instrOfOp_build, requestOf_cw, ← hzero rfl, ← hcw]
        simp [requestOf, hb, buildBody_wordAt hbody]
    · have hplain : cwIsBuild u cw = false := by simpa [hb] using hop
      have hbody : body.length = cwLen cw := by simpa [bodyLength, hplain] using hlen
      rw [requestOf_plain hplain, encode_instrOfOp_plain hop hunit (fun h => hbody.trans (hecc h))
        (fun h => List.eq_nil_of_length_eq_zero (hbody.trans (hzero h))), hbody, ← hdir hop, ← hcw]

/-- Settles O6: the bytes read are the word and the body of the request, which is what its instruction encodes to. -/
theorem decodedRequestIsItsEncoding : Obligations.DecodedRequestIsItsEncoding := by
  unfold Obligations.DecodedRequestIsItsEncoding
  intro u bs rest i h
  obtain ⟨r, hparse, rfl⟩ := parseRequest_of_decodeBytes h
  obtain ⟨body, hlen, hr, hbs⟩ := parseRequest_ok hparse
  refine ⟨decode_wf (parseRequest_data hparse), leBytes r.cw ++ body, hbs, ?_⟩
  conv_lhs => rw [hr]
  exact encode_decode hlen

/-- Only the output formats have no request. -/
theorem encode_eq_none_iff (i : Instr) : encode i = none ↔ i.isOutputFormat = true := by
  cases i <;> simp [encode, Instr.isOutputFormat]

/-- Settles O5: the round trip of each instruction's request. -/
theorem encodedRequestDecodesToItsOperation : Obligations.EncodedRequestDecodesToItsOperation := by
  unfold Obligations.EncodedRequestDecodesToItsOperation
  exact fun i hwf => ⟨encode_eq_none_iff i, encode_roundTrip i hwf⟩

/-! ## Words written out -/

/-- Settles O3: each command word is put together from its fields; of the malformed ones, the first selects no operation
and the second has bit 9 set. -/
theorem commandWordExamples : Obligations.CommandWordExamples := by
  unfold Obligations.CommandWordExamples
  have hbuild : mkCw 0x10 true 0 = 0x00000110 := by decide
  have hrelease : mkCw 0x11 false 0 = 0x00000011 := by decide
  have hzero : opOfOpsel (cwOpsel 0x00000000) = none := by decide
  have hbit9 : opOfOpsel (cwOpsel 0x00000210) = some .build ∧ cwRsv 0x00000210 ≠ 0 := by decide
  refine ⟨by decide, by decide, by decide, fun k buf l m desc => ?_, fun k => ?_, fun u => cwMalformed_of_none hzero,
    fun u => (cwMalformed_of_op hbit9.1).2 (.inr (.inl hbit9.2))⟩
  · rw [encode, hbuild, buildBody]
  · rw [encode, hrelease]

/-- Settles O4: the decoder evaluates each word. -/
theorem opcodeTableWordsDecode : Obligations.OpcodeTableWordsDecode := by
  unfold Obligations.OpcodeTableWordsDecode
  and_intros <;> decide

end Sys2Proof.Proofs

/-! PROOFS. The statements on packets (OutputFormatBytes, PacketReaderInvertsFraming) and on the descriptor flags
(DefaultConfigWords): the packet reader on a long packet and on a short one, and the tags the framer puts out. -/

namespace Sys2Proof.Proofs

open Sys2Proof Sys2Proof.Machine Sys2Proof.Claims

/-! ## The output formats -/

/-- A length has one low and one high byte, those of a long header (R97). -/
theorem lengthBytes_unique {n : Nat} {lo hi : Byte} (h : lo.toNat + 256 * hi.toNat = n) :
    BitVec.ofNat 8 n = lo ∧ BitVec.ofNat 8 (n / 256) = hi := by
  have hlo := lo.isLt
  have hhi := hi.isLt
  constructor <;> apply BitVec.eq_of_toNat_eq <;> rw [BitVec.toNat_ofNat] <;> omega

/-- Settles O40: each output format is answered with its packet. -/
theorem outputFormatBytes : Obligations.OutputFormatBytes := by
  unfold Obligations.OutputFormatBytes
  refine ⟨fun d0 s => exec_framer rfl s, fun d0 d1 s => exec_framer rfl s, fun p s lo hi hlen => ?_⟩
  obtain ⟨hlo, hhi⟩ := lengthBytes_unique hlen
  rw [exec_framer rfl, State.respond_eq, framerRsp, longRsp, longPacket, header, crcTrailer, hlo, hhi]
  rfl

/-! ## The packet reader (R100) -/

theorem packetLength_tags (h1 h2 : Byte) (rest : List Byte) :
    packetLength (0x05 :: h1 :: h2 :: rest) = some 4 ∧ packetLength (0x15 :: h1 :: h2 :: rest) = some 4 ∧
      packetLength (0x39 :: h1 :: h2 :: rest) = some (6 + (h1.toNat + 256 * h2.toNat)) :=
  ⟨rfl, rfl, rfl⟩

/-- Bytes with another tag, or too few for a header, have no packet length. -/
theorem packetLength_otherTag {tag : Byte} (h : tag ∉ [0x05, 0x15, 0x39]) (rest : List Byte) :
    packetLength (tag :: rest) = none := by
  simp only [List.mem_cons, List.not_mem_nil, or_false, not_or] at h
  obtain ⟨h05, h15, h39⟩ := h
  match rest with
  | [] => rfl
  | [_] => rfl
  | _ :: _ :: _ => rw [packetLength, if_neg h05, if_neg h15, if_neg h39]

theorem decodePacket_otherTag {tag : Byte} (h : tag ∉ [0x05, 0x15, 0x39]) (rest : List Byte) :
    decodePacket (tag :: rest) = none := by
  rw [decodePacket, packetLength_otherTag h]

/-- A short packet of one byte is read back (R96). -/
theorem decodePacket_short1 (ms : EccMasks) (d0 : Byte) (rest : List Byte) :
    decodePacket (short1 ms d0 ++ rest) = some (.pkt05 d0, rest) := by
  simp [decodePacket, short1, header, packetLength]

/-- A short packet of two bytes is read back (R96). -/
theorem decodePacket_short2 (ms : EccMasks) (d0 d1 : Byte) (rest : List Byte) :
    decodePacket (short2 ms d0 d1 ++ rest) = some (.pkt15 d0 d1, rest) := by
  simp [decodePacket, short2, header, packetLength]

/-- The reader finds a long packet's length in its header (R97, R100). -/
theorem packetLength_longPacket (ms : EccMasks) {p : List Byte} (h : p.length ≤ 65535) (rest : List Byte) :
    packetLength (longPacket ms p ++ rest) = some (longPacket ms p).length := by
  rw [longPacket_length, Nat.add_comm, longPacket, header]
  exact congrArg (fun n => some (6 + n)) (lengthBytes p.length h)

/-- A long packet is read back: the payload is what stands between the header and the two CRC bytes. -/
theorem decodePacket_longPacket (ms : EccMasks) {p : List Byte} (h : p.length ≤ 65535) (rest : List Byte) :
    decodePacket (longPacket ms p ++ rest) = some (.pkt39 p, rest) := by
  have htag : (longPacket ms p ++ rest).getD 0 0 = 0x39 := rfl
  have hpayload : ((longPacket ms p ++ rest).drop 4).take ((longPacket ms p).length - 6) = p := by
    rw [longPacket_length]
    simp [longPacket, header]
  rw [decodePacket, packetLength_longPacket ms h]
  dsimp only
  rw [if_neg (by simp), htag, if_neg (by decide), if_neg (by decide), hpayload, List.drop_left]

/-- The packet FRAME makes of a payload is read back as its output format (R170). -/
theorem decodePacket_framePacket (ms : EccMasks) {p : List Byte} (h0 : p ≠ []) (h : p.length ≤ 65535)
    (rest : List Byte) : decodePacket (framePacket ms p ++ rest) = some (formatOf p, rest) := by
  match p with
  | [] => exact absurd rfl h0
  | [d0] => exact decodePacket_short1 ms d0 rest
  | [d0, d1] => exact decodePacket_short2 ms d0 d1 rest
  | _ :: _ :: _ :: _ => exact decodePacket_longPacket ms h rest

/-! ## The tags the framer puts out -/

theorem longPacket_tag (ms : EccMasks) (p : List Byte) : (longPacket ms p).getD 0 0 ∈ [(0x05 : Byte), 0x15, 0x39] := by
  simp [longPacket, header]

theorem framePacket_tag (ms : EccMasks) (p : List Byte) : (framePacket ms p).getD 0 0 ∈ [(0x05 : Byte), 0x15, 0x39] := by
  match p with
  | [] => exact longPacket_tag ms []
  | [_] => simp [framePacket, short1, header]
  | [_, _] => simp [framePacket, short2, header]
  | _ :: _ :: _ :: _ => exact longPacket_tag ms _

/-- The bytes of every faultless answer of SHORT, LONG, FRAME, FRAMEW and SENDCMD are the long packet of the data or the
packet FRAME makes of it. -/
theorem framerRsp_packet {ms : EccMasks} {data : List Byte} {i : Instr}
    (hi : i = .short data ∨ i = .long data ∨ i = .frame data ∨ i = .framew data ∨ i = .sendcmd data)
    (hok : (framerRsp ms i).status = 0x00) :
    (framerRsp ms i).bytes = longPacket ms data ∨ (framerRsp ms i).bytes = framePacket ms data := by
  have hfault : ∀ {c : Status}, c ≠ .ok → (Rsp.faulted c).status ≠ 0x00 := by
    intro c
    cases c <;> decide
  -- SENDCMD is answered as FRAMEW (R111)
  have hframew : (framerRsp ms (.framew data)).status = 0x00 →
      (framerRsp ms (.framew data)).bytes = framePacket ms data := by
    rw [framerRsp]
    split
    · exact fun h => absurd h (hfault (by decide))
    · split
      · exact fun h => absurd h (hfault (by decide))
      · exact fun _ => rfl
  rcases hi with rfl | rfl | rfl | rfl | rfl
  · match data with
    | [] | _ :: _ :: _ :: _ => exact absurd hok (hfault (c := .shortLen) (by decide))
    | [_] | [_, _] => exact .inr rfl
  · exact .inl rfl
  · rw [framerRsp] at hok ⊢
    split at hok
    · exact absurd hok (hfault (by decide))
    · next h0 => exact .inr (by rw [if_neg h0, frameRsp])
  · exact .inr (hframew hok)
  · exact .inr (hframew hok)

/-- Every faultless answer of the five framing operations begins with a tag the reader knows (R100). -/
theorem exec_framing_tag {i : Instr} {data : List Byte} {s t : State}
    (hi : i = .short data ∨ i = .long data ∨ i = .frame data ∨ i = .framew data ∨ i = .sendcmd data)
    (h : exec i s = .next t) (hok : t.fr0.rsp.status = 0x00) :
    t.fr0.rsp.bytes.getD 0 0 ∈ [(0x05 : Byte), 0x15, 0x39] := by
  have hframer : answeredByFramer i = true := by rcases hi with rfl | rfl | rfl | rfl | rfl <;> rfl
  rw [exec_framer hframer, State.respond_eq] at h
  cases h
  rcases framerRsp_packet hi hok with hbytes | hbytes
  · rw [hbytes]
    exact longPacket_tag _ data
  · rw [hbytes]
    exact framePacket_tag _ data

/-- LONG and PKT_39 put out the long packet of their payload in every state (R97, R165). -/
theorem exec_longPacket {p : List Byte} {i : Instr} (hi : i = .long p ∨ i = .pkt39 p) (s : State) :
    exec i s = .next (s.respond (longRsp s.cfg.eccMasks p)) := by
  rcases hi with rfl | rfl <;> exact exec_framer rfl s

/-- Settles O8: the reader's length and its refusal of other tags, the tags put out, and the packets read back. -/
theorem packetReaderInvertsFraming : Obligations.PacketReaderInvertsFraming := by
  unfold Obligations.PacketReaderInvertsFraming
  exact ⟨packetLength_tags, fun _ rest htag => decodePacket_otherTag htag rest,
    fun _ _ _ ⟨_, hi⟩ h hok => exec_framing_tag hi h hok,
    fun ms _ rest h0 hlen => decodePacket_framePacket ms h0 hlen rest,
    fun ms _ rest hlen => decodePacket_longPacket ms hlen rest,
    fun _ rest _ s hi hlen => ⟨_, exec_longPacket hi s, decodePacket_longPacket s.cfg.eccMasks hlen rest⟩⟩

/-! ## The descriptor flags -/

/-- A descriptor's DES0 follows from whether it is the first and whether it is the last (R205). -/
theorem descConfig_of_place (y : DescLayout) {n count : Nat} {first last : Bool} (hfirst : (n == 0) = first)
    (hlast : (n + 1 == count) = last) :
    descConfig y n count =
      flagBit y.own ||| flagBit y.ch ||| flagIf first y.fd ||| flagIf last y.ld ||| flagIf (!last) y.dic := by
  rw [descConfig, bne, hfirst, hlast]

/-- Settles O48: the four places of a descriptor in its chain. -/
theorem defaultConfigWords : Obligations.DefaultConfigWords := by
  unfold Obligations.DefaultConfigWords
  refine ⟨by decide, fun count hcount => ⟨?_, fun n hn hlast => ?_, ?_⟩⟩
  · rw [descConfig_of_place (first := true) (last := false) _ rfl (by simp; omega)]
    decide
  · rw [descConfig_of_place (first := false) (last := false) _ (by simp; omega) (by simp; omega)]
    decide
  · rw [descConfig_of_place (first := false) (last := true) _ (by simp; omega) (by simp; omega)]
    decide

end Sys2Proof.Proofs

/-! PROOFS. The statements on the header ECC (EccBitsAreMaskedParities, EccIsTheXorOfColumns, EccColumnsTellOneFlippedBit,
EccOperationResult, EveryPacketCarriesItsEcc): each bit of the ECC is one masked parity, and a packet begins with a header
and its ECC. -/

namespace Sys2Proof.Proofs

open Sys2Proof Sys2Proof.Machine Sys2Proof.Claims

/-! ## The ECC bit by bit -/

/-- The mask of ECC bit `i` (R121), zero for the bits that have none. -/
def eccMask (ms : EccMasks) (i : Nat) : BitVec 24 := [ms.p0, ms.p1, ms.p2, ms.p3, ms.p4, ms.p5].getD i 0

theorem eccMask_of_getElem? {ms : EccMasks} {i : Nat} {mask : BitVec 24}
    (h : [ms.p0, ms.p1, ms.p2, ms.p3, ms.p4, ms.p5][i]? = some mask) : eccMask ms i = mask := by
  rw [eccMask, List.getD_eq_getElem?_getD, h, Option.getD_some]

theorem eccMask_of_six_le (ms : EccMasks) {i : Nat} (h : 6 ≤ i) : eccMask ms i = 0#24 :=
  List.getD_eq_default _ _ h

theorem parity_zero : parity 0#24 = false := by decide

theorem eccWord_topBits (ms : EccMasks) (d : BitVec 24) {i : Nat} (h : 6 ≤ i) : (eccWord ms d).getLsbD i = false := by
  obtain ⟨-, -, -, -, -, -, b6, b7⟩ := eccWord_bits ms d
  obtain rfl | rfl | h8 : i = 6 ∨ i = 7 ∨ 8 ≤ i := by omega
  · exact b6
  · exact b7
  · exact BitVec.getLsbD_of_ge _ _ h8

/-- Bit `i` of the ECC is the parity of the header word under its mask (R122); the bits without a mask are 0. -/
theorem eccWord_getLsbD (ms : EccMasks) (d : BitVec 24) (i : Nat) :
    (eccWord ms d).getLsbD i = parity (d &&& eccMask ms i) := by
  obtain ⟨b0, b1, b2, b3, b4, b5, -, -⟩ := eccWord_bits ms d
  match i with
  | 0 => exact b0
  | 1 => exact b1
  | 2 => exact b2
  | 3 => exact b3
  | 4 => exact b4
  | 5 => exact b5
  | i + 6 => rw [eccWord_topBits ms d (by omega), eccMask_of_six_le ms (by omega), BitVec.and_zero, parity_zero]

/-- Parity under a mask counts the header bits that the mask selects. -/
theorem parity_headerWord_and (h0 h1 h2 : Byte) (mask : BitVec 24) :
    parity (headerWord h0 h1 h2 &&& mask) = decide ((List.range 24).countP (fun j => mask.getLsbD j &&
      (if j < 8 then h0.getLsbD j else if j < 16 then h1.getLsbD (j - 8) else h2.getLsbD (j - 16))) % 2 = 1) := by
  rw [parity, parityBelow_eq_count]
  refine congrArg (fun n => decide (n % 2 = 1)) (List.countP_congr fun j hj => ?_)
  rw [BitVec.getLsbD_and, headerWord_bit, decide_eq_true (List.mem_range.1 hj), Bool.true_and, Bool.and_comm]

/-- Settles O22: bit `i` is the parity under the mask in place `i`, and there is none in places 6 and 7. -/
theorem eccBitsAreMaskedParities : Obligations.EccBitsAreMaskedParities := by
  unfold Obligations.EccBitsAreMaskedParities
  refine fun ms h0 h1 h2 => ⟨fun i mask hmask => ?_, eccWord_topBits ms _ (by decide), eccWord_topBits ms _ (by decide)⟩
  rw [ecc, eccWord_getLsbD, eccMask_of_getElem? hmask, parity_headerWord_and]

/-! ## Linearity and columns (R123) -/

/-- The header word is the three bytes, the first one lowest (R120). -/
theorem headerWord_eq_append (h0 h1 h2 : Byte) : headerWord h0 h1 h2 = h2 ++ h1 ++ h0 := by
  refine BitVec.eq_of_getLsbD_eq fun j hj => ?_
  rw [headerWord_bit, decide_eq_true hj, Bool.true_and, BitVec.getLsbD_append, BitVec.getLsbD_append, Nat.sub_sub]
  by_cases h8 : j < 8
  · rw [if_pos h8, if_pos h8]
  · by_cases h16 : j < 16
    · simp [h8, h16, show j - 8 < 8 by omega]
    · simp [h8, h16, show ¬ j - 8 < 8 by omega]

theorem eccWord_xor (ms : EccMasks) (x y : BitVec 24) : eccWord ms (x ^^^ y) = eccWord ms x ^^^ eccWord ms y := by
  refine BitVec.eq_of_getLsbD_eq fun i _ => ?_
  have hand : (x ^^^ y) &&& eccMask ms i = (x &&& eccMask ms i) ^^^ (y &&& eccMask ms i) :=
    BitVec.eq_of_getLsbD_eq fun j _ => by
      simp only [BitVec.getLsbD_and, BitVec.getLsbD_xor, Bool.and_xor_distrib_right]
  rw [BitVec.getLsbD_xor, eccWord_getLsbD, eccWord_getLsbD, eccWord_getLsbD, hand, parity_xor]

/-- A word with bit `j` alone has odd parity under a mask that selects bit `j`. -/
theorem parityBelow_twoPow_and {j : Nat} (hj : j < 24) (mask : BitVec 24) (n : Nat) :
    parityBelow (BitVec.twoPow 24 j &&& mask) n = (decide (j < n) && mask.getLsbD j) := by
  induction n with
  | zero => simp [parityBelow]
  | succ n ih =>
    rw [parityBelow, ih, BitVec.getLsbD_and, BitVec.getLsbD_twoPow]
    rcases Nat.lt_trichotomy j n with h | rfl | h
    · simp [h, show j < n + 1 by omega, Nat.ne_of_lt h]
    · simp [hj]
    · simp [show ¬ j < n by omega, show ¬ j < n + 1 by omega, (Nat.ne_of_lt h).symm]

/-- Bit `i` of the column of header bit `j` is whether mask `i` selects bit `j`. -/
theorem eccWord_twoPow_getLsbD (ms : EccMasks) {j : Nat} (hj : j < 24) (i : Nat) :
    (eccWord ms (BitVec.twoPow 24 j)).getLsbD i = (eccMask ms i).getLsbD j := by
  rw [eccWord_getLsbD, parity, parityBelow_twoPow_and hj, decide_eq_true hj, Bool.true_and]

/-- The XOR of the columns of the set bits below bit `n`. -/
def columnsBelow (ms : EccMasks) (d : BitVec 24) (n : Nat) : Byte :=
  (List.range n).foldl (fun e j => if d.getLsbD j then e ^^^ eccWord ms (BitVec.twoPow 24 j) else e) 0

theorem columnsBelow_succ (ms : EccMasks) (d : BitVec 24) (n : Nat) :
    columnsBelow ms d (n + 1) =
      if d.getLsbD n then columnsBelow ms d n ^^^ eccWord ms (BitVec.twoPow 24 n) else columnsBelow ms d n := by
  rw [columnsBelow, List.range_succ, List.foldl_append]
  rfl

/-- Each column adds its header bit to the parities of the masks that select it. -/
theorem columnsBelow_getLsbD (ms : EccMasks) (d : BitVec 24) (i : Nat) {n : Nat} (hn : n ≤ 24) :
    (columnsBelow ms d n).getLsbD i = parityBelow (d &&& eccMask ms i) n := by
  induction n with
  | zero => exact BitVec.getLsbD_zero
  | succ n ih =>
    rw [columnsBelow_succ, parityBelow, BitVec.getLsbD_and, ← ih (by omega)]
    cases d.getLsbD n
    · simp
    · simp [eccWord_twoPow_getLsbD ms (show n < 24 by omega)]

theorem eccWord_eq_columnsBelow (ms : EccMasks) (d : BitVec 24) : eccWord ms d = columnsBelow ms d 24 :=
  BitVec.eq_of_getLsbD_eq fun i _ => by rw [eccWord_getLsbD, columnsBelow_getLsbD ms d i (Nat.le_refl 24), parity]

/-- The columns under the default masks, as R123 prints them (log entry 13). -/
theorem standard_columns : (List.range 24).map (fun j => eccWord .standard (BitVec.twoPow 24 j)) =
    [0x07, 0x0B, 0x0D, 0x0E, 0x13, 0x15, 0x16, 0x19, 0x1A, 0x1C, 0x23, 0x25, 0x26, 0x29, 0x2A, 0x2C, 0x31, 0x32, 0x34,
      0x38, 0x1F, 0x2F, 0x37, 0x3B] := by decide

/-- Settles O23: the ECC is linear because parity is, and the columns add up bit by bit. -/
theorem eccIsTheXorOfColumns : Obligations.EccIsTheXorOfColumns := by
  unfold Obligations.EccIsTheXorOfColumns
  exact ⟨fun ms h0 h1 h2 => by rw [ecc, headerWord_eq_append], eccWord_xor, eccWord_eq_columnsBelow, standard_columns⟩

/-! ## One flipped bit (R124) -/

theorem ecc_and_topBits (ms : EccMasks) (h0 h1 h2 : Byte) : ecc ms h0 h1 h2 &&& 0xC0 = 0#8 := by
  have hlow : ∀ i, i < 6 → (0xC0 : Byte).getLsbD i = false := by decide
  refine BitVec.eq_of_getLsbD_eq fun i _ => ?_
  rw [BitVec.getLsbD_and, BitVec.getLsbD_zero]
  by_cases hi : i < 6
  · rw [hlow i hi, Bool.and_false]
  · rw [ecc, eccWord_topBits ms _ (by omega), Bool.false_and]

theorem eccWord_zero (ms : EccMasks) : eccWord ms 0#24 = 0#8 := by
  refine BitVec.eq_of_getLsbD_eq fun i _ => ?_
  rw [eccWord_getLsbD, BitVec.zero_and, parity_zero, BitVec.getLsbD_zero]

/-- Settles O24: the top bits have no mask, a zero word has even parities, and R123's table holds the default columns. -/
theorem eccColumnsTellOneFlippedBit : Obligations.EccColumnsTellOneFlippedBit := by
  unfold Obligations.EccColumnsTellOneFlippedBit
  refine ⟨ecc_and_topBits, eccWord_zero, ?_, by decide⟩
  rw [standard_columns]
  decide

/-! ## The operation ECC and the packets' ECC -/

/-- Settles O25: ECC is answered by the framer with the ECC byte. -/
theorem eccOperationResult : Obligations.EccOperationResult := by
  unfold Obligations.EccOperationResult
  exact fun _ _ _ s => exec_framer rfl s

/-- Byte 3 of a packet is the ECC of its bytes 0 to 2 (R127). -/
def CarriesEcc (ms : EccMasks) (bytes : List Byte) : Prop :=
  4 ≤ bytes.length ∧ bytes.getD 3 0 = ecc ms (bytes.getD 0 0) (bytes.getD 1 0) (bytes.getD 2 0)

theorem header_append_carriesEcc (ms : EccMasks) (h0 h1 h2 : Byte) (rest : List Byte) :
    CarriesEcc ms (header ms h0 h1 h2 ++ rest) :=
  ⟨by simp [header], rfl⟩

theorem longPacket_carriesEcc (ms : EccMasks) (p : List Byte) : CarriesEcc ms (longPacket ms p) := by
  rw [longPacket, List.append_assoc]
  exact header_append_carriesEcc ..

theorem framePacket_carriesEcc (ms : EccMasks) (p : List Byte) : CarriesEcc ms (framePacket ms p) := by
  match p with
  | [] => exact longPacket_carriesEcc ms []
  | [d0] => exact header_append_carriesEcc ms 0x05 d0 0x00 []
  | [d0, d1] => exact header_append_carriesEcc ms 0x15 d0 d1 []
  | _ :: _ :: _ :: _ => exact longPacket_carriesEcc ms _

/-- The bytes of every faultless answer of the five framing operations are a packet of the data. -/
theorem exec_framing_packet {i : Instr} {data : List Byte} {s t : State}
    (hi : i = .short data ∨ i = .long data ∨ i = .frame data ∨ i = .framew data ∨ i = .sendcmd data)
    (h : exec i s = .next t) (hok : t.fr0.rsp.status = 0x00) :
    t.fr0.rsp.bytes = longPacket s.cfg.eccMasks data ∨ t.fr0.rsp.bytes = framePacket s.cfg.eccMasks data := by
  have hframer : answeredByFramer i = true := by rcases hi with rfl | rfl | rfl | rfl | rfl <;> rfl
  rw [exec_framer hframer, State.respond_eq] at h
  cases h
  exact framerRsp_packet hi hok

/-- Settles O37: what the framing operations put out is a long or a framed packet, and each begins with a header. -/
theorem everyPacketCarriesItsEcc : Obligations.EveryPacketCarriesItsEcc := by
  unfold Obligations.EveryPacketCarriesItsEcc
  intro i s t ⟨data, hi⟩ h hok
  show CarriesEcc s.cfg.eccMasks t.fr0.rsp.bytes
  rcases exec_framing_packet hi h hok with hbytes | hbytes <;> rw [hbytes]
  · exact longPacket_carriesEcc _ data
  · exact framePacket_carriesEcc _ data

end Sys2Proof.Proofs

/-! PROOFS. The statements on the payload CRC (CrcTableRoutineEqualsBitwise, CrcOfAConcatenation, CrcOperationResult): the
shift register is linear, so a byte step is the table's entry for the low byte and the high byte moved down. -/

namespace Sys2Proof.Proofs

open Sys2Proof Sys2Proof.Machine Sys2Proof.Claims

/-! ## The table (R142, R143) -/

/-- The printed table is eight shifts of each byte value, entry by entry. -/
theorem crcTable_eq_map : crcTable = (List.range 256).map fun n => crcShifts 8 (BitVec.ofNat 16 n) := by decide +kernel

theorem crcTable_length : crcTable.length = 256 := by rw [crcTable_eq_map, List.length_map, List.length_range]

theorem crcTable_getD {n : Nat} (h : n < 256) : crcTable.getD n 0 = crcShifts 8 (BitVec.ofNat 16 n) := by
  rw [crcTable_eq_map, List.getD_eq_getElem?_getD, List.getElem?_map, List.getElem?_range h]
  rfl

/-! ## The bytes of the register -/

theorem half_lowByte_toNat (x : Half) : (x &&& 0xFF).toNat = x.toNat % 2 ^ 8 :=
  (BitVec.toNat_and x 0xFF).trans (Nat.and_two_pow_sub_one_eq_mod x.toNat 8)

theorem half_lowByte_getLsbD (x : Half) (i : Nat) : (x &&& 0xFF).getLsbD i = (decide (i < 8) && x.getLsbD i) := by
  rw [BitVec.getLsbD, half_lowByte_toNat, Nat.testBit_mod_two_pow, BitVec.getLsbD]

/-- The register is its low byte and its high byte. -/
theorem half_lowByte_xor_highByte (x : Half) : (x &&& (0xFF : Half)) ^^^ (x >>> 8 <<< 8) = x := by
  refine BitVec.eq_of_getLsbD_eq fun i hi => ?_
  rw [BitVec.getLsbD_xor, half_lowByte_getLsbD, BitVec.getLsbD_shiftLeft, BitVec.getLsbD_ushiftRight]
  by_cases h : i < 8
  · simp [h]
  · simp [h, hi, show 8 + (i - 8) = i by omega]

theorem half_highByte_ushiftRight (x : Half) : (x >>> 8 <<< 8) >>> 8 = x >>> 8 := by bv_omega

/-- An input byte does not reach the high byte of the register. -/
theorem half_xor_byte_ushiftRight (c : Half) (b : Byte) : (c ^^^ b.setWidth 16) >>> 8 = c >>> 8 := by
  have hbyte : b.setWidth 16 >>> 8 = 0#16 := by bv_omega
  rw [BitVec.ushiftRight_xor_distrib, hbyte, BitVec.xor_zero]

/-! ## A byte step (R141, R142) -/

/-- The low byte of the register chooses the entry that holds its eight shifts. -/
theorem crcTable_getD_lowByte (x : Half) : crcTable.getD (x &&& 0xFF).toNat 0 = crcShifts 8 (x &&& 0xFF) := by
  have hlt : (x &&& 0xFF).toNat < 256 := half_lowByte_toNat x ▸ Nat.mod_lt _ (by decide)
  rw [crcTable_getD hlt, BitVec.ofNat_toNat, BitVec.setWidth_eq]

/-- Eight shifts move the high byte down, which feeds nothing back, and XOR the low byte's eight shifts onto it. -/
theorem crcShifts_eight (x : Half) : crcShifts 8 x = (x >>> 8) ^^^ crcShifts 8 (x &&& 0xFF) := by
  have hhigh : crcShifts 8 (x >>> 8 <<< 8) = x >>> 8 := by
    rw [crcShifts_of_low_zero 8 _ fun i hi => by simp [hi], half_highByte_ushiftRight]
  calc crcShifts 8 x = crcShifts 8 ((x &&& (0xFF : Half)) ^^^ (x >>> 8 <<< 8)) := by rw [half_lowByte_xor_highByte]
    _ = crcShifts 8 (x &&& 0xFF) ^^^ crcShifts 8 (x >>> 8 <<< 8) := crcShifts_xor 8 _ _
    _ = (x >>> 8) ^^^ crcShifts 8 (x &&& 0xFF) := by rw [hhigh, BitVec.xor_comm]

/-- One step with the table is one byte of the bitwise definition. -/
theorem crcTableByte_eq_crcByte (c : Half) (b : Byte) : crcTableByte c b = crcByte c b := by
  rw [crcByte, crcShifts_eight, half_xor_byte_ushiftRight, crcTableByte, crcTable_getD_lowByte]

/-! ## Byte sequences (R142, R144) -/

theorem crc16From_eq_foldl (c : Half) (bs : List Byte) : crc16From c bs = bs.foldl crcByte c := by
  induction bs generalizing c with
  | nil => rfl
  | cons b bs ih => exact ih (crcByte c b)

theorem crc16From_append (c : Half) (a b : List Byte) : crc16From c (a ++ b) = crc16From (crc16From c a) b := by
  simp only [crc16From_eq_foldl, List.foldl_append]

theorem crc16Table_eq_crc16 (bs : List Byte) : crc16Table bs = crc16 bs := by
  rw [crc16Table, crc16, crc16From_eq_foldl, funext fun c => funext (crcTableByte_eq_crcByte c)]

/-- Settles O26: the table is compared with its definition entry by entry; the rest follows from one byte step. -/
theorem crcTableRoutineEqualsBitwise : Obligations.CrcTableRoutineEqualsBitwise := by
  unfold Obligations.CrcTableRoutineEqualsBitwise
  exact ⟨crcTable_length, fun _ => crcTable_getD, crcTableByte_eq_crcByte, crc16Table_eq_crc16⟩

/-- Settles O27: the check string is computed, and the CRC is a fold over the bytes. -/
theorem crcOfAConcatenation : Obligations.CrcOfAConcatenation := by
  unfold Obligations.CrcOfAConcatenation
  exact ⟨rfl, by decide +kernel, crc16From_append 0xFFFF⟩

/-! ## The operation CRC (R146) -/

/-- Settles O28: CRC is answered by the framer with the CRC and its two bytes. -/
theorem crcOperationResult : Obligations.CrcOperationResult := by
  unfold Obligations.CrcOperationResult
  exact fun _ s => exec_framer rfl s

end Sys2Proof.Proofs

/-! PROOFS. The statements on the framing operations (ShortOutputsFourBytes, ShortFaultsOnOtherLengths,
LongOutputsHeaderPayloadCrc, FramedLengthAndTagFollowTheDispatch, FrameOperationResult, FramewOperationResult,
FrameLengthFaults, TransmitWordsUnpackToThePacket): where the bytes of a packet stand, what each operation answers by the
payload's length, and the transmit words taken apart again. -/

namespace Sys2Proof.Proofs

open Sys2Proof Sys2Proof.Machine Sys2Proof.Claims

/-! ## SHORT (R160, R161) -/

/-- A payload of neither one nor two bytes is empty or has at least three. -/
theorem framerRsp_short_otherLength (ms : EccMasks) {data : List Byte} (h1 : data.length ≠ 1) (h2 : data.length ≠ 2) :
    framerRsp ms (.short data) = Rsp.faulted .shortLen := by
  match data with
  | [] => rfl
  | [_] => exact absurd rfl h1
  | [_, _] => exact absurd rfl h2
  | _ :: _ :: _ :: _ => rfl

/-- Settles O30: SHORT is answered by the framer, and only one or two bytes are no fault. -/
theorem shortFaultsOnOtherLengths : Obligations.ShortFaultsOnOtherLengths := by
  unfold Obligations.ShortFaultsOnOtherLengths
  intro data s h1 h2
  rw [exec_framer rfl, framerRsp_short_otherLength _ h1 h2]
  rfl

/-- A faultless SHORT had one or two bytes, and its packet is a header alone. -/
theorem framerRsp_short_of_ok {ms : EccMasks} {data : List Byte} (hok : (framerRsp ms (.short data)).status = 0x00) :
    ∃ h0 h1 h2, (framerRsp ms (.short data)).bytes = header ms h0 h1 h2 := by
  by_cases hlen : data.length = 1 ∨ data.length = 2
  · rcases hlen with h | h
    · obtain ⟨d0, rfl⟩ := List.length_eq_one_iff.mp h
      exact ⟨0x05, d0, 0x00, rfl⟩
    · obtain ⟨d0, d1, rfl⟩ := List.length_eq_two.mp h
      exact ⟨0x15, d0, d1, rfl⟩
  · obtain ⟨h1, h2⟩ := not_or.mp hlen
    rw [framerRsp_short_otherLength ms h1 h2] at hok
    exact absurd hok (by decide)

/-- Settles O29: the two packets of SHORT, and every faultless answer is a header with its ECC. -/
theorem shortOutputsFourBytes : Obligations.ShortOutputsFourBytes := by
  unfold Obligations.ShortOutputsFourBytes
  refine ⟨fun d0 s => exec_framer rfl s, fun d0 d1 s => exec_framer rfl s, fun data s t h hok => ?_⟩
  rw [exec_framer rfl, State.respond_eq] at h
  cases h
  obtain ⟨h0, h1, h2, hbytes⟩ := framerRsp_short_of_ok hok
  rw [hbytes]
  exact ⟨rfl, rfl⟩

/-! ## LONG (R165, R166) -/

/-- Behind the header a long packet has its payload. -/
theorem longPacket_payload (ms : EccMasks) (p : List Byte) : ((longPacket ms p).drop 4).take p.length = p := by
  rw [longPacket, List.append_assoc]
  exact List.take_left

/-- Behind header and payload a long packet has the CRC. -/
theorem longPacket_trailer (ms : EccMasks) (p : List Byte) (j : Nat) :
    (longPacket ms p).getD (p.length + 4 + j) 0 = (crcTrailer (crc16 p)).getD j 0 := by
  have hfront : (header ms 0x39 (BitVec.ofNat 8 p.length) (BitVec.ofNat 8 (p.length / 256)) ++ p).length =
      p.length + 4 := by simp [header]
  rw [longPacket, List.getD_append_right _ _ _ _ (by omega), hfront, Nat.add_sub_cancel_left]

/-- Settles O31: the output is the long packet of the payload, read part by part. -/
theorem longOutputsHeaderPayloadCrc : Obligations.LongOutputsHeaderPayloadCrc := by
  unfold Obligations.LongOutputsHeaderPayloadCrc
  intro data s hlen
  obtain ⟨-, hecc⟩ := longPacket_carriesEcc s.cfg.eccMasks data
  exact ⟨longPacket s.cfg.eccMasks data, exec_framer rfl s, longPacket_length .., rfl, lengthBytes _ hlen, hecc,
    longPacket_payload .., longPacket_trailer _ data 0, longPacket_trailer _ data 1⟩

/-! ## FRAME (R170, R171) -/

/-- The model's dispatch gives the packet that R160 and R165 write out; a length byte is the length modulo 256. -/
theorem framePacket_eq_framedBytes (ms : EccMasks) (p : List Byte) : framePacket ms p = framedBytes ms p := by
  have hbyte : ∀ n : Nat, BitVec.ofNat 8 (n % 256) = BitVec.ofNat 8 n := fun n =>
    BitVec.eq_of_toNat_eq (Nat.mod_mod n 256)
  match p with
  | [_] => rfl
  | [_, _] => rfl
  | [] | _ :: _ :: _ :: _ =>
    simp only [framedBytes, hbyte]
    rfl

theorem framePacket_getD_zero (ms : EccMasks) {p : List Byte} (h : 1 ≤ p.length) :
    (framePacket ms p).getD 0 0 = if p.length = 1 then 0x05 else if p.length = 2 then 0x15 else 0x39 := by
  match p with
  | [] => exact absurd h (by decide)
  | [_] => rfl
  | [_, _] => rfl
  | _ :: _ :: _ :: _ => rfl

/-- Settles O32: the packet, its length, its tag, and the length field of a long packet. -/
theorem framedLengthAndTagFollowTheDispatch : Obligations.FramedLengthAndTagFollowTheDispatch := by
  unfold Obligations.FramedLengthAndTagFollowTheDispatch
  intro ms p h1 hlen
  refine ⟨framePacket_eq_framedBytes ms p, framePacket_length ms p h1, framePacket_getD_zero ms h1, fun h3 => ?_⟩
  rw [framePacket_of_long ms p h3]
  exact lengthBytes _ hlen

/-- R170's response with the packet and its length written out. -/
theorem frameRsp_eq (ms : EccMasks) {data : List Byte} (h : 1 ≤ data.length) :
    frameRsp ms data =
      { status := 0x00, value := if 3 ≤ data.length then crc16 data else 0
        count := BitVec.ofNat 32 (if data.length ≤ 2 then 4 else data.length + 6)
        bytes := framedBytes ms data, words := [], pktlenM1 := 0 } := by
  rw [frameRsp, framePacket_length ms data h, framePacket_eq_framedBytes]
  rfl

/-- Settles O33: a payload with a byte in it passes FRAME's one check. -/
theorem frameOperationResult : Obligations.FrameOperationResult := by
  unfold Obligations.FrameOperationResult
  intro data s h1 _
  rw [exec_framer rfl, framerRsp, if_neg (by omega), frameRsp_eq _ h1, State.respond_eq]

/-! ## FRAMEW and SENDCMD (R176, R111) -/

theorem exec_framew_or_sendcmd {data : List Byte} {i : Instr} (hi : i = .framew data ∨ i = .sendcmd data) (s : State) :
    exec i s = .next (s.respond (framerRsp s.cfg.eccMasks (.framew data))) := by
  rcases hi with rfl | rfl <;> exact exec_framer rfl s

/-- A packet fits the transmit buffer of 256 bytes when its payload has at most 250. -/
theorem txbufBytes_lt_framePacket_iff (ms : EccMasks) {data : List Byte} (h : 1 ≤ data.length) :
    txbufBytes < (framePacket ms data).length ↔ 250 < data.length := by
  rw [framePacket_length ms data h, txbufBytes]
  split <;> omega

theorem framerRsp_framew_fits (ms : EccMasks) {data : List Byte} (h1 : 1 ≤ data.length) (h : data.length ≤ 250) :
    framerRsp ms (.framew data) = framewRsp ms data := by
  have hfits : ¬ txbufBytes < (framePacket ms data).length :=
    mt (txbufBytes_lt_framePacket_iff ms h1).mp (Nat.not_lt.mpr h)
  rw [framerRsp, if_neg (by omega), if_neg hfits]

theorem framerRsp_framew_overflow (ms : EccMasks) {data : List Byte} (h : 250 < data.length) :
    framerRsp ms (.framew data) = Rsp.faulted .txbufOverflow := by
  rw [framerRsp, if_neg (by omega), if_pos ((txbufBytes_lt_framePacket_iff ms (by omega)).mpr h)]

/-- R176's response with the packet and its length written out. -/
theorem framewRsp_eq (ms : EccMasks) {data : List Byte} (h : 1 ≤ data.length) :
    framewRsp ms data =
      { status := 0x00, value := if 3 ≤ data.length then crc16 data else 0
        count := BitVec.ofNat 32 (if data.length ≤ 2 then 4 else data.length + 6)
        bytes := framedBytes ms data
        words := packWords (framedBytes ms data)
        pktlenM1 := BitVec.ofNat 8 (if data.length ≤ 2 then 3 else data.length + 5) } := by
  have hlast : (framePacket ms data).length - 1 = if data.length ≤ 2 then 3 else data.length + 5 := by
    rw [framePacket_length ms data h]
    split <;> rfl
  rw [framewRsp, frameRsp_eq ms h, hlast, framePacket_eq_framedBytes]

/-- Settles O34: a payload of 1 to 250 bytes passes both of R176's checks. -/
theorem framewOperationResult : Obligations.FramewOperationResult := by
  unfold Obligations.FramewOperationResult
  intro data s i hi h1 h
  rw [exec_framew_or_sendcmd hi, framerRsp_framew_fits _ h1 h, framewRsp_eq _ h1, State.respond_eq]

/-- Settles O35: the empty payload fails the first check, a payload over 250 bytes the second. -/
theorem frameLengthFaults : Obligations.FrameLengthFaults := by
  unfold Obligations.FrameLengthFaults
  refine fun s => ⟨fun i hi => ?_, fun data i hi h => ?_⟩
  · rcases hi with rfl | rfl | rfl <;> exact exec_framer rfl s
  · rw [exec_framew_or_sendcmd hi, framerRsp_framew_overflow _ h]
    rfl

/-! ## The transmit-buffer words (R178) -/

/-- Byte `k` of the words is byte `k` of the packet, 0 beyond its end. -/
theorem packWords_byte (p : List Byte) {k : Nat} (h : k < 4 * ((p.length + 3) / 4)) :
    ((packWords p).getD (k / 4) 0).extractLsb' (8 * (k % 4)) 8 = p.getD k 0 := by
  rw [packWords_getD p (by omega), packWord_byte p _ (Nat.mod_lt k (by decide)), Nat.div_add_mod]

/-- The four bytes of one transmit word. -/
theorem leBytes_packWord (p : List Byte) (w : Nat) :
    leBytes (packWord p w) = (List.range 4).map fun j => p.getD (4 * w + j) 0 := by
  have hbyte : ∀ j ∈ List.range 4, (packWord p w).extractLsb' (8 * j) 8 = p.getD (4 * w + j) 0 := fun j hj =>
    packWord_byte p w (List.mem_range.mp hj)
  exact List.map_congr_left hbyte

/-- The first `n` transmit words hold the first `4 n` bytes of the packet, 0 beyond its end. -/
theorem unpack_map_packWord (p : List Byte) (n : Nat) :
    unpack ((List.range n).map (packWord p)) = (List.range (4 * n)).map fun k => p.getD k 0 := by
  induction n with
  | zero => rfl
  | succ n ih =>
    rw [unpack] at ih ⊢
    rw [List.range_succ, List.map_append, List.flatMap_append, ih, Nat.mul_succ, List.range_add, List.map_append,
      List.map_map]
    exact congrArg _ ((List.append_nil _).trans (leBytes_packWord p n))

/-- Unpacking the transmit words and dropping the padding gives the packet. -/
theorem unpack_packWords_take (p : List Byte) : (unpack (packWords p)).take p.length = p := by
  have hcover : p.length ≤ 4 * ceilDiv p.length 4 := by
    rw [ceilDiv]
    omega
  have hbytes : (List.range p.length).map (fun k => p.getD k 0) = p :=
    List.ext_getElem (by simp) fun k _ hk => by simp [hk]
  rw [packWords, unpack_map_packWord, ← List.map_take, List.take_range, Nat.min_eq_left hcover, hbytes]

/-- PKTLEN_M1 holds the length of a packet that fits the transmit buffer, less one. -/
theorem framewRsp_pktlenM1 (ms : EccMasks) {data : List Byte} (h1 : 1 ≤ data.length) (h : data.length ≤ 250) :
    (framewRsp ms data).pktlenM1.toNat + 1 = (framePacket ms data).length := by
  have hfits : ¬ txbufBytes < (framePacket ms data).length :=
    mt (txbufBytes_lt_framePacket_iff ms h1).mp (Nat.not_lt.mpr h)
  have hpos : 1 ≤ (framePacket ms data).length := by
    rw [framePacket_length ms data h1]
    split <;> omega
  rw [txbufBytes] at hfits
  rw [framewRsp, BitVec.toNat_ofNat, Nat.mod_eq_of_lt (by omega), Nat.sub_add_cancel hpos]

/-- Settles O36: the words' bytes are the packet's, and FRAMEW answers with the words of its packet. -/
theorem transmitWordsUnpackToThePacket : Obligations.TransmitWordsUnpackToThePacket := by
  unfold Obligations.TransmitWordsUnpackToThePacket
  refine ⟨fun p => ⟨packWords_length p, fun k hk => packWords_byte p (by omega), fun k hpad hk => ?_⟩,
    fun data s h1 h => ⟨_, exec_framer rfl s, ?_⟩⟩
  · rw [packWords_byte p hk, List.getD_eq_default _ _ hpad]
  · rw [State.respond_eq, framerRsp_framew_fits _ h1 h, framewRsp_pktlenM1 _ h1 h]
    exact unpack_packWords_take _

end Sys2Proof.Proofs

/-! PROOFS. The statements on the descriptor-chain builder (HardwareKeepsTheChainUntilCompletionOrReset,
BuildRecordsTheChain, BuildWritesExactlyTheDescriptors, BuildWhileAChainExistsIsBusy, ChunkSizesAreBounded,
ChunksTileTheBuffer, DescriptorAddressesAreValid, DescriptorAddressesStartAtSixteen, ReleaseFreesTheChain,
NotificationsMoveTheOwnership, TransitionTable, BuilderInstancesAreIndependent): what exec and a step can do to a chain,
the arithmetic of an admitted BUILD, and the effect of each builder operation. -/

namespace Sys2Proof.Proofs

open Sys2Proof Sys2Proof.Machine Sys2Proof.Claims

/-! ## What an instruction and a turn can do to a chain -/

/-- An instruction leaves a builder's chain registers, or takes its effect on them as an operation of that builder. -/
theorem exec_chain {i : Instr} {s t : State} (h : exec i s = .next t) (k : DbId) :
    (t.db k).chain = (s.db k).chain ∨
      ∃ e, builderOf i = some k ∧ builderOp s.cfg i (s.db k) = .ok e ∧ (t.db k).chain = e.chain := by
  by_cases hk : builderOf i = some k
  · rw [exec_builder hk] at h
    obtain ⟨-, ⟨-, rfl⟩ | ⟨f, -, -, rfl⟩ | ⟨e, -, hok, rfl⟩⟩ := dbOperation_next h
    · exact .inl (by rw [State.dbFault_db_same])
    · exact .inl (by rw [State.dbFault_db_same])
    · exact .inr ⟨e, hk, hok, by rw [State.dbCommit_db_same]⟩
  · refine .inl ?_
    by_cases hres : ∃ cw data, i = .reserved (.db k) cw data
    · obtain ⟨cw, data, rfl⟩ := hres
      rcases exec_next h with ⟨hf, -⟩ | ⟨j, _, _, hj, -, rfl⟩ | ⟨j, hj, -⟩
      · cases hf
      · cases hj
        rw [State.setDb_db_same]
      · cases hj
    · rw [exec_db_ne h ⟨hk, fun cw data e => hres ⟨cw, data, e⟩⟩]

/-- The one instruction that takes a chain away from the hardware is EV_COMPLETE at its instance (R217). -/
theorem exec_leaves_hw {i : Instr} {s t : State} {k : DbId} (h : exec i s = .next t)
    (hs : (s.db k).chain.state = .hw) (ht : (t.db k).chain.state ≠ .hw) :
    i = .evComplete k ∧ (t.db k).chain.state = .done := by
  rcases exec_chain h k with hsame | ⟨e, hk, hok, hchain⟩
  · exact absurd (hsame ▸ hs) ht
  · rcases builderOp_ok hk hok with
      ⟨_, _, _, _, _, -, hstate, -⟩ | ⟨-, hstate, -⟩ | ⟨-, hstate, -⟩ | ⟨hi, -, rfl⟩
    -- BUILD needs EMPTY, RELEASE needs BUILT or DONE, EV_ENABLED needs BUILT
    · simp [hs] at hstate
    · simp [hs] at hstate
    · simp [hs] at hstate
    · exact ⟨hi, by rw [hchain]⟩

/-- A request is read as an operation of a builder only at that builder (R92). -/
theorem unit_of_builderOf_decode {u : UnitId} {r : Request} {k : DbId} (h : builderOf (decode u r) = some k) :
    u = .db k := by
  cases hm : cwMalformed u r.cw with
  | true =>
    rw [decode, if_pos hm] at h
    cases h
  | false =>
    obtain ⟨op, ho, -⟩ := row_of_not_malformed hm
    rw [decode_row_of_op hm ho] at h
    unfold instrOfOp at h
    repeat' split at h
    all_goals cases h
    all_goals rfl

/-- Replacing a port leaves every chain. -/
theorem setPort_chain (s : State) (u : UnitId) (p : Port) (k : DbId) :
    ((s.setPort u p).db k).chain = (s.db k).chain := by
  obtain ⟨-, hchain, -⟩ := State.setPort_db_fields s u p k
  exact hchain

/-- A turn takes a chain away from the hardware only by performing the EV_COMPLETE in that instance's latches. -/
theorem serve_leaves_hw {u : UnitId} {s t : State} {k : DbId} (h : serve u s = .next t)
    (hs : (s.db k).chain.state = .hw) (ht : (t.db k).chain.state ≠ .hw) :
    (∃ r, (s.port (.db k)).latch = some r ∧ decode (.db k) r = .evComplete k) ∧ (t.db k).chain.state = .done := by
  rcases serve_next h with ⟨r, hr, hexec⟩ | ⟨-, rfl⟩
  · obtain ⟨hi, hdone⟩ := exec_leaves_hw hexec (by rw [State.consume, setPort_chain, hs]) ht
    obtain rfl := unit_of_builderOf_decode (u := u) (r := r) (k := k) (by rw [hi]; rfl)
    exact ⟨⟨r, hr, hi⟩, hdone⟩
  · rcases s.latchNext_cases u with hsame | ⟨r, rest, -, hset⟩
    · rw [hsame] at ht
      exact absurd hs ht
    · rw [hset, setPort_chain] at ht
      exact absurd hs ht

/-- RESET of an instance leaves the other builders. -/
theorem resetUnit_db_ne (s : State) {u : UnitId} {k : DbId} (h : u ≠ .db k) : (s.resetUnit u).db k = s.db k := by
  cases u with
  | fr0 => exact State.db_with_fr0 s .reset k
  | db j => exact State.setDb_db_ne s .reset fun e => h (by rw [e])

/-- Settles O59: bytes sent, other agents' writes and another instance's RESET leave the chain; a turn is
`serve_leaves_hw`. -/
theorem hardwareKeepsTheChainUntilCompletionOrReset : Obligations.HardwareKeepsTheChainUntilCompletionOrReset := by
  unfold Obligations.HardwareKeepsTheChainUntilCompletionOrReset
  intro s t k hs h ht
  have turn : ∀ {u : UnitId} {rest : List Input}, serve u { s with inputs := rest } = .next t →
      (∃ r, (s.port (.db k)).latch = some r ∧ decode (.db k) r = .evComplete k) ∧ (t.db k).chain.state = .done := by
    intro u rest hserve
    have := serve_leaves_hw hserve (by rw [State.db_with_inputs, hs]) ht
    rwa [State.port_with_inputs] at this
  rcases step_next h with ⟨u, bytes, rest, -, -, rfl⟩ | ⟨u, rest, -, -, hserve⟩ | ⟨u, rest, hin, -, rfl⟩ |
    ⟨a, b, rest, -, rfl⟩ | ⟨u, -, -, hserve⟩ | ⟨-, -, rfl⟩
  · rw [State.receive, setPort_chain, State.db_with_inputs] at ht
    exact absurd hs ht
  · exact .inl (turn hserve)
  · by_cases hu : u = .db k
    · subst hu
      exact .inr ⟨⟨rest, hin⟩, by rw [State.resetUnit, State.setDb_db_same]; rfl⟩
    · rw [resetUnit_db_ne _ hu, State.db_with_inputs] at ht
      exact absurd hs ht
  · rw [State.db_extWrite, State.db_with_inputs] at ht
    exact absurd hs ht
  · exact .inl (turn (rest := s.inputs) hserve)
  · exact absurd hs ht


/-! ## BUILD -/

/-- The instruction's form says the direction that the requester reads (R111, R35). -/
theorem dirBit_of_buildForm {dir : Dir} {k : DbId} {buf l m desc : Word} {i : Instr}
    (hi : i ∈ buildForms dir k buf l m desc) :
    dirBit dir = if i = .buildTo k buf l m desc ∨ i = .buildW k buf l m desc then 0 else 1 := by
  cases dir <;> simp only [buildForms, List.mem_cons, List.not_mem_nil, or_false] at hi <;>
    rcases hi with rfl | rfl <;> simp [dirBit]

/-- Settles O41: the commit of BUILD's effect sets the registers and the response, and memory and history beside. -/
theorem buildRecordsTheChain : Obligations.BuildRecordsTheChain := by
  unfold Obligations.BuildRecordsTheChain
  intro s k dir buf l m desc i hi hk hf he ha
  refine ⟨_, exec_buildForm_admitted hi hk hf he ha, ?_, ?_, ?_⟩
  · rw [State.dbCommit_mem, State.dbCommit_history, State.dbCommit_eq]
    rfl
  · rw [State.dbCommit_db_same]
    rfl
  · rw [State.dbCommit_db_same]
    exact dirBit_of_buildForm hi

/-- DES0 has exactly the flags of R205 set. -/
theorem descConfig_getLsbD (y : DescLayout) (n count : Nat) (b : Fin 32) :
    (descConfig y n count).getLsbD b.val = decide (b = y.own ∨ b = y.ch ∨ (b = y.fd ∧ n = 0) ∨
      (b = y.ld ∧ n + 1 = count) ∨ (b = y.dic ∧ n + 1 ≠ count)) := by
  simp only [descConfig, BitVec.getLsbD_or, flagBit_bit, flagIf_bit, Bool.decide_or, Bool.decide_and, Bool.or_assoc,
    Bool.and_comm, bne, decide_not, beq_eq_decide]

/-- Each word of each descriptor is read back from memory after BUILD's writes (R62). -/
theorem readsWord_chainWrites (mem : Memory) {y : DescLayout} {buf l m desc : Nat}
    (hb : desc + 16 * ceilDiv l m ≤ 2 ^ 32) {n : Nat} (hn : n < ceilDiv l m) {a : Nat} {v : Word}
    (hw : (BitVec.ofNat 32 a, v) ∈ descWrites y buf l m desc (ceilDiv l m) n) (ha : a < desc + 16 * (n + 1)) :
    ReadsWord (mem.writeAll (chainWrites y buf l m desc)) a v := by
  intro j hj
  have hread := get_chainWrites_at mem hb hn hw hj
  rwa [BitVec.toNat_ofNat, Nat.mod_eq_of_lt (by omega)] at hread

/-- Settles O42: the words of each descriptor are those of `descWrites`, and the writes stay inside the array. -/
theorem buildWritesExactlyTheDescriptors : Obligations.BuildWritesExactlyTheDescriptors := by
  unfold Obligations.BuildWritesExactlyTheDescriptors
  intro s k dir buf l m desc i hi hk hf he ha
  obtain ⟨-, -, -, ⟨-, harray, -⟩, -⟩ := checkOperands_none.1 (buildAdmitted_iff_checkOperands.1 ha)
  refine ⟨_, exec_buildForm_admitted hi hk hf he ha, fun n hn => ?_, fun a hout => ?_⟩
  · rw [State.dbCommit_mem]
    have word : ∀ {a : Nat} {v : Word}, (BitVec.ofNat 32 a, v) ∈ descWrites s.cfg.descLayout buf.toNat l.toNat m.toNat
        desc.toNat (chunks l m) n → a < desc.toNat + 16 * (n + 1) →
        ReadsWord (s.mem.writeAll (buildEffect s.cfg.descLayout dir buf l m desc).writes) a v :=
      readsWord_chainWrites s.mem harray hn
    exact ⟨⟨_, word (.head _) (by omega), descConfig_getLsbD s.cfg.descLayout n (chunks l m)⟩,
      word (.tail _ (.head _)) (by omega), word (.tail _ (.tail _ (.head _))) (by omega),
      word (.tail _ (.tail _ (.tail _ (.head _)))) (by omega)⟩
  · rw [State.dbCommit_mem]
    exact get_chainWrites_off s.mem harray hout

/-- Settles O50: the first thing BUILD asks is that there is no chain. -/
theorem buildWhileAChainExistsIsBusy : Obligations.BuildWhileAChainExistsIsBusy := by
  unfold Obligations.BuildWhileAChainExistsIsBusy
  intro s k dir buf l m desc i hi hk hf hs
  rw [(exec_buildForm hi s).2, dbOperation_error hk hf (buildOp_busy hs), dbFault_eq_faultedState hf (by decide)]
  rfl

/-! ## The arithmetic of an admitted BUILD -/

/-- Every descriptor but the last has a whole chunk. -/
theorem descSize_inner (l m : Nat) {n count : Nat} (hn : n + 1 < count) : descSize l m n count = m := by
  rw [descSize, if_neg (by omega)]

/-- The last descriptor has what the others leave. -/
theorem descSize_last (l m : Nat) {count : Nat} (hc : 1 ≤ count) :
    descSize l m (count - 1) count = l - (count - 1) * m := by
  rw [descSize, if_pos (by omega)]

section Chunks

variable {l m : Nat} (hl : 0 < l) (hm : 0 < m)

include hl hm

/-- Whole chunks on all but the last and one more make `count` whole chunks. -/
theorem ceilDiv_pred_mul_add : (ceilDiv l m - 1) * m + m = ceilDiv l m * m := by
  rw [← Nat.succ_mul, Nat.succ_eq_add_one, Nat.sub_add_cancel (ceilDiv_pos hl hm)]

/-- The last chunk is neither empty nor longer than a whole one (R206). -/
theorem lastChunk_bounds : 0 < l - (ceilDiv l m - 1) * m ∧ l - (ceilDiv l m - 1) * m ≤ m := by
  have hbounds := ceilDiv_bounds hl hm
  have hsplit := ceilDiv_pred_mul_add hl hm
  omega

/-- The last chunk is a whole one exactly when whole chunks make up the buffer (R206). -/
theorem lastChunk_eq_iff : l - (ceilDiv l m - 1) * m = m ↔ m ∣ l := by
  obtain ⟨hbelow, habove⟩ := ceilDiv_bounds hl hm
  have hsplit := ceilDiv_pred_mul_add hl hm
  refine ⟨fun h => ⟨ceilDiv l m, by rw [Nat.mul_comm]; omega⟩, fun hdvd => ?_⟩
  -- the next multiple of `m` after `(count - 1) * m` is `count * m`
  have hnext : (ceilDiv l m - 1) * m + m ≤ l := by
    have := Nat.le_of_dvd (Nat.sub_pos_of_lt hbelow) (Nat.dvd_sub hdvd (Nat.dvd_mul_left m _))
    omega
  omega

/-- The sizes of the chunks add up to the buffer's (R210). -/
theorem descSize_sum : ((List.range (ceilDiv l m)).map fun n => descSize l m n (ceilDiv l m)).sum = l := by
  obtain ⟨hbelow, -⟩ := ceilDiv_bounds hl hm
  obtain ⟨c, hc⟩ : ∃ c, ceilDiv l m = c + 1 := Nat.exists_eq_add_one.2 (ceilDiv_pos hl hm)
  rw [hc, Nat.add_sub_cancel] at hbelow
  have hinner : ((List.range c).map fun n => descSize l m n (c + 1)) = List.replicate c m := by
    rw [List.eq_replicate_iff]
    refine ⟨by simp, fun size hsize => ?_⟩
    obtain ⟨n, hn, rfl⟩ := List.mem_map.1 hsize
    exact descSize_inner l m (Nat.succ_lt_succ (List.mem_range.1 hn))
  have hlast : descSize l m c (c + 1) = l - c * m := descSize_last l m (Nat.le_add_left 1 c)
  rw [hc, List.range_succ, List.map_append, hinner, List.sum_append_nat, List.sum_replicate_nat, List.map_singleton, hlast,
    List.sum_singleton]
  omega

end Chunks


/-- A chunk is neither empty nor longer than a whole one (R206). -/
theorem descSize_bounds {l m n : Nat} (hl : 0 < l) (hm : 0 < m) :
    0 < descSize l m n (ceilDiv l m) ∧ descSize l m n (ceilDiv l m) ≤ m := by
  unfold descSize
  split
  · exact lastChunk_bounds hl hm
  · exact ⟨hm, Nat.le_refl m⟩

/-- Chunks of a buffer of whole words are whole words (R206). -/
theorem descSize_mod_four {l m : Nat} (hl : l % 4 = 0) (hm : m % 4 = 0) (n count : Nat) :
    descSize l m n count % 4 = 0 := by
  have hprod : ((count - 1) * m) % 4 = 0 := by rw [Nat.mul_mod, hm, Nat.mul_zero, Nat.zero_mod]
  unfold descSize
  split <;> omega

/-- Settles O44: a chunk is `m` or what is left for the last one. -/
theorem chunkSizesAreBounded : Obligations.ChunkSizesAreBounded := by
  unfold Obligations.ChunkSizesAreBounded
  intro c k buf l m desc ha
  obtain ⟨⟨hl, hl4⟩, ⟨hm, hm4, hmax⟩, -⟩ := ha
  have hl0 := Nat.pos_of_ne_zero hl
  have hm0 := Nat.pos_of_ne_zero hm
  refine ⟨fun n hn => ?_, ?_⟩
  · obtain ⟨hpos, hle⟩ : 0 < descSize l.toNat m.toNat n (chunks l m) ∧ _ := descSize_bounds hl0 hm0
    have h4 := descSize_mod_four hl4 hm4 n (chunks l m)
    have hfield : m.toNat < 2 ^ c.sizeFieldBits k := Nat.lt_of_le_pred (Nat.two_pow_pos _) hmax
    refine ⟨?_, by omega, hle, h4, Nat.lt_of_le_of_lt hle hfield⟩
    by_cases hin : n + 1 < chunks l m
    · rw [descSize_inner _ _ hin, if_pos hin]
    · rw [if_neg hin, descSize, if_pos (by omega)]
  · have hpos : 1 ≤ chunks l m := ceilDiv_pos hl0 hm0
    rw [descSize_last _ _ hpos]
    exact lastChunk_eq_iff hl0 hm0

/-- Each chunk starts where the one before ends (R207). -/
theorem descBuf_succ (buf m n : Nat) : descBuf buf m n + m = descBuf buf m (n + 1) := by
  rw [descBuf, descBuf, Nat.succ_mul, Nat.add_assoc]

/-- Every next word but the last is the following descriptor's address (R208). -/
theorem descNext_inner (desc : Nat) {n count : Nat} (hn : n + 1 < count) :
    descNext desc n count = descAddr desc (n + 1) := by
  rw [descNext, if_neg (by omega)]

/-- The last next word is 0 (R208). -/
theorem descNext_last (desc : Nat) {count : Nat} (hc : 1 ≤ count) : descNext desc (count - 1) count = 0 := by
  rw [descNext, if_pos (by omega)]

/-- Settles O45: the inner chunks are whole, and the last one ends where the buffer does. -/
theorem chunksTileTheBuffer : Obligations.ChunksTileTheBuffer := by
  unfold Obligations.ChunksTileTheBuffer
  intro c k buf l m desc ha
  obtain ⟨⟨hl, -⟩, ⟨hm, -⟩, -⟩ := ha
  have hl0 := Nat.pos_of_ne_zero hl
  have hm0 := Nat.pos_of_ne_zero hm
  have hpos : 1 ≤ chunks l m := ceilDiv_pos hl0 hm0
  obtain ⟨hbelow, -⟩ : (chunks l m - 1) * m.toNat < l.toNat ∧ _ := ceilDiv_bounds hl0 hm0
  refine ⟨descSize_sum hl0 hm0, by simp [descBuf], fun n hn => ?_, ?_, fun n hn => descNext_inner _ hn,
    descNext_last _ hpos⟩
  · rw [descSize_inner _ _ hn, descBuf_succ]
  · rw [descSize_last _ _ hpos, descBuf]
    omega

/-- Settles O46: the array begins at a non-zero multiple of 4 and lies in the address space. -/
theorem descriptorAddressesAreValid : Obligations.DescriptorAddressesAreValid := by
  unfold Obligations.DescriptorAddressesAreValid
  intro c k buf l m desc ha
  obtain ⟨⟨hl, -⟩, ⟨hm, -⟩, ⟨-, halign⟩, ⟨hdesc, harray, -⟩, -⟩ := ha
  refine ⟨ceilDiv_pos (Nat.pos_of_ne_zero hl) (Nat.pos_of_ne_zero hm), fun n hn => ?_⟩
  have haddr : descAddr desc.toNat n = desc.toNat + 16 * n := rfl
  refine ⟨by omega, by omega, by omega, fun hn' => ?_⟩
  rw [descNext_inner _ hn', descAddr, descBytes]
  omega

/-- Refutes O47: R201 admits DESC = 4 (log entry 7), and the first descriptor then lies below 16. -/
theorem not_descriptorAddressesStartAtSixteen : ¬ Obligations.DescriptorAddressesStartAtSixteen := by
  unfold Obligations.DescriptorAddressesStartAtSixteen
  intro h
  have hadm : BuildAdmitted .default .db0 0x100 4 4 4 := by
    rw [BuildAdmitted, chunks]
    decide
  obtain ⟨hcount, hall⟩ := h .default .db0 0x100 4 4 4 hadm
  obtain ⟨hlow, -⟩ := hall 0 hcount
  exact absurd hlow (by decide)

/-! ## RELEASE and the notifications -/

/-- RELEASE frees the array of a chain that the hardware does not own (R212). -/
theorem releaseOp_ok {d : DbUnit} (h : d.chain.state = .built ∨ d.chain.state = .done) :
    releaseOp d =
      .ok { chain := .empty, count := d.chain.count, writes := [], events := [.free d.chain.base] } := by
  rcases h with h | h <;> simp [releaseOp, h]

/-- EV_ENABLED hands a built chain to the hardware (R215). -/
theorem enabledOp_ok {d : DbUnit} (h : d.chain.state = .built) :
    enabledOp d = .ok { chain := { d.chain with state := .hw }, count := 0, writes := [], events := [] } := by
  simp [enabledOp, h]

/-- EV_COMPLETE takes the chain back from the hardware (R219). -/
theorem completeOp_ok {d : DbUnit} (h : d.chain.state = .hw) :
    completeOp d = .ok { chain := { d.chain with state := .done }, count := 0, writes := [], events := [] } := by
  simp [completeOp, h]

/-- Committing an effect without writes leaves memory. -/
theorem dbCommit_without_writes (s : State) (k : DbId) (chain : ChainRegs) (count : Word) (events : List Event) :
    s.dbCommit k { chain, count, writes := [], events } =
      ({ s with history := s.history ++ events } : State).setDb k
        { s.db k with rsp := { Rsp.empty with count := count }, chain := chain } := by
  simp [State.dbCommit_eq, Memory.writeAll]

/-- Settles O52: in BUILT and DONE RELEASE commits its Free event, the count and empty registers. -/
theorem releaseFreesTheChain : Obligations.ReleaseFreesTheChain := by
  unfold Obligations.ReleaseFreesTheChain
  intro s k hk hf hs
  rw [exec_builder (k := k) rfl, builderOp, dbOperation_ok hk hf (releaseOp_ok hs), dbCommit_without_writes]
  rfl

/-- Committing a notification's effect moves the chain's state and answers OK (R215, R219). -/
theorem dbCommit_notification (s : State) (k : DbId) (chain : ChainRegs) :
    s.dbCommit k { chain, count := 0, writes := [], events := [] } =
      s.setDb k { s.db k with rsp := statusOnly 0x00, chain := chain } := by
  rw [dbCommit_without_writes, List.append_nil]
  rfl

/-- A builder instruction that answers OK has taken its effect: the code of a fault is not 0 (R250). -/
theorem exec_builder_of_ok {i : Instr} {k : DbId} {s t : State} (hk : builderOf i = some k) (h : exec i s = .next t)
    (hok : (t.db k).rsp.status = 0x00) :
    ∃ e, builderOp s.cfg i (s.db k) = .ok e ∧ t = s.dbCommit k e := by
  rw [exec_builder hk] at h
  obtain ⟨-, ⟨-, rfl⟩ | ⟨f, -, herr, rfl⟩ | ⟨e, -, heff, rfl⟩⟩ := dbOperation_next h
  · rw [State.dbFault_db_same] at hok
    have hzero : statusCode .sticky = 0x00 := hok
    exact absurd hzero (by decide)
  · rw [State.dbFault_db_same] at hok
    obtain ⟨-, hcode⟩ := builderOp_error hk herr
    have hzero : statusCode f = 0x00 := hok
    rw [hzero] at hcode
    exact absurd hcode (by decide)
  · exact ⟨e, heff, rfl⟩

/-- A notification that answers OK moves the chain state one on in R35's encoding and leaves the direction. -/
theorem notification_bits {i : Instr} {k : DbId} {s t : State} (hi : i = .evEnabled k ∨ i = .evComplete k)
    (h : exec i s = .next t) (hok : (t.db k).rsp.status = 0x00) :
    chainStateBits (t.db k).chain.state = chainStateBits (s.db k).chain.state + 1 ∧
      dirBit (t.db k).chain.dir = dirBit (s.db k).chain.dir := by
  have hk : builderOf i = some k := by rcases hi with rfl | rfl <;> rfl
  obtain ⟨e, he, rfl⟩ := exec_builder_of_ok hk h hok
  rw [State.dbCommit_db_same]
  rcases builderOp_ok hk he with
    ⟨dir, buf, l, m, desc, hform, -⟩ | ⟨rfl, -⟩ | ⟨-, hs, rfl⟩ | ⟨-, hs, rfl⟩
  -- neither notification is a form of BUILD or RELEASE
  · cases dir <;> rcases hi with rfl | rfl <;> simp [buildForms] at hform
  · rcases hi with hi | hi <;> cases hi
  · exact ⟨by rw [hs]; rfl, rfl⟩
  · exact ⟨by rw [hs]; rfl, rfl⟩

/-- The two bits of `DB.CHAIN_STATE` have no reserved encoding (R35). -/
theorem chainStateBits_surjective (bits : BitVec 2) : ∃ c, chainStateBits c = bits := by
  have every : ∀ b : BitVec 2, b = 0 ∨ b = 1 ∨ b = 2 ∨ b = 3 := by decide
  rcases every bits with rfl | rfl | rfl | rfl
  · exact ⟨.empty, rfl⟩
  · exact ⟨.built, rfl⟩
  · exact ⟨.hw, rfl⟩
  · exact ⟨.done, rfl⟩

/-- Settles O53: the encodings, what a notification moves when it answers OK, and where it does. -/
theorem notificationsMoveTheOwnership : Obligations.NotificationsMoveTheOwnership := by
  unfold Obligations.NotificationsMoveTheOwnership
  refine ⟨⟨rfl, rfl, rfl, rfl, chainStateBits_surjective, rfl, rfl⟩, fun s k i t hi h hok => notification_bits hi h hok,
    fun s k hk hf => ⟨fun hs => ?_, fun hs => ?_⟩⟩
  · rw [exec_builder (k := k) rfl, builderOp, dbOperation_ok hk hf (enabledOp_ok hs), dbCommit_notification]
  · rw [exec_builder (k := k) rfl, builderOp, dbOperation_ok hk hf (completeOp_ok hs), dbCommit_notification]

/-! ## The transition table -/

/-- The instructions of a column are operations of the instance. -/
theorem builderOf_of_admits {c : Config} {k : DbId} {op : ChainOp} {i : Instr} (h : op.Admits c k i) :
    builderOf i = some k := by
  cases op with
  | build =>
    obtain ⟨dir, buf, l, m, desc, -, hi⟩ := h
    exact (exec_buildForm hi .reset).1
  | release => cases h; rfl
  | enabled => cases h; rfl
  | complete => cases h; rfl

/-- A form of BUILD decides as BUILD in its direction. -/
theorem builderOp_buildForm {dir : Dir} {k : DbId} {buf l m desc : Word} {i : Instr}
    (h : i ∈ buildForms dir k buf l m desc) (c : Config) : builderOp c i = buildOp c k dir buf l m desc := by
  cases dir <;> simp only [buildForms, List.mem_cons, List.not_mem_nil, or_false] at h <;>
    rcases h with rfl | rfl <;> rfl

/-- The cells of R222's table with a next state. -/
theorem cell_next {c next : ChainState} {op : ChainOp} (h : cell c op = .inl next) :
    (op = .build ∧ c = .empty ∧ next = .built) ∨ (op = .release ∧ (c = .built ∨ c = .done) ∧ next = .empty) ∨
      (op = .enabled ∧ c = .built ∧ next = .hw) ∨ (op = .complete ∧ c = .hw ∧ next = .done) := by
  cases c <;> cases op <;> simp_all [cell]

/-- The cells of R222's table with a fault. -/
theorem cell_fault {c : ChainState} {op : ChainOp} {code : Byte} (h : cell c op = .inr code) :
    (op = .build ∧ c ≠ .empty ∧ code = 0x15) ∨ (op = .release ∧ c = .empty ∧ code = 0x17) ∨
      (op = .release ∧ c = .hw ∧ code = 0x16) ∨ (op = .enabled ∧ c ≠ .built ∧ code = 0x18) ∨
      (op = .complete ∧ c ≠ .hw ∧ code = 0x18) := by
  cases c <;> cases op <;> simp_all [cell]

/-- Where R222's table gives a next state, the operation takes an effect with that chain state, and RELEASE's is its Free
event. -/
theorem builderOp_of_cell_next {c : Config} {k : DbId} {op : ChainOp} {i : Instr} {d : DbUnit} {next : ChainState}
    (ha : op.Admits c k i) (hcell : cell d.chain.state op = .inl next) :
    ∃ e, builderOp c i d = .ok e ∧ e.chain.state = next ∧
      ((∃ j, i = .release j) → e.writes = [] ∧ e.events = [.free d.chain.base]) := by
  rcases cell_next hcell with ⟨rfl, hs, rfl⟩ | ⟨rfl, hs, rfl⟩ | ⟨rfl, hs, rfl⟩ | ⟨rfl, hs, rfl⟩
  · obtain ⟨dir, buf, l, m, desc, hadm, hi⟩ := ha
    refine ⟨_, builderOp_buildForm hi c ▸ buildOp_builds hs (buildAdmitted_iff_checkOperands.1 hadm), rfl, ?_⟩
    rintro ⟨j, rfl⟩
    cases dir <;> simp [buildForms] at hi
  · cases ha
    exact ⟨_, releaseOp_ok hs, rfl, fun _ => ⟨rfl, rfl⟩⟩
  · cases ha
    exact ⟨_, enabledOp_ok hs, rfl, fun ⟨_, hi⟩ => nomatch hi⟩
  · cases ha
    exact ⟨_, completeOp_ok hs, rfl, fun ⟨_, hi⟩ => nomatch hi⟩

/-- Where R222's table gives a fault, the operation raises it. -/
theorem builderOp_of_cell_fault {c : Config} {k : DbId} {op : ChainOp} {i : Instr} {d : DbUnit} {code : Byte}
    (ha : op.Admits c k i) (hcell : cell d.chain.state op = .inr code) :
    ∃ f, builderOp c i d = .error f ∧ statusCode f = code := by
  rcases cell_fault hcell with ⟨rfl, hs, rfl⟩ | ⟨rfl, hs, rfl⟩ | ⟨rfl, hs, rfl⟩ | ⟨rfl, hs, rfl⟩ | ⟨rfl, hs, rfl⟩
  · obtain ⟨dir, buf, l, m, desc, -, hi⟩ := ha
    exact ⟨.chainBusy, builderOp_buildForm hi c ▸ buildOp_busy hs, rfl⟩
  · cases ha
    exact ⟨.releaseNone, by simp [builderOp, releaseOp, hs], rfl⟩
  · cases ha
    exact ⟨.releaseOwned, by simp [builderOp, releaseOp, hs], rfl⟩
  · cases ha
    exact ⟨.eventOrder, by simp [builderOp, enabledOp, hs], rfl⟩
  · cases ha
    exact ⟨.eventOrder, by simp [builderOp, completeOp, hs], rfl⟩

/-- F_STICKY replaces the response latches and nothing else (R253). -/
theorem dbFault_sticky {s : State} {k : DbId} (hf : (s.db k).faulted = true) :
    s.dbFault k .sticky = s.setDb k { s.db k with rsp := statusOnly 0x1F } := by
  rw [State.dbFault, if_neg (by simp), ← hf]
  rfl

/-- Settles O54: each cell of the table, and F_STICKY for every operation after a fault. -/
theorem transitionTable : Obligations.TransitionTable := by
  unfold Obligations.TransitionTable
  refine fun s k hk => ⟨fun hf op i ha => ?_, fun hf i hi => ?_⟩
  · have hi := builderOf_of_admits ha
    rw [exec_builder hi]
    cases hcell : cell (s.db k).chain.state op with
    | inl next =>
      obtain ⟨e, he, hnext, hfree⟩ := builderOp_of_cell_next ha hcell
      refine ⟨_, dbOperation_ok hk hf he, ?_⟩
      rw [State.dbCommit_db_same]
      refine ⟨hnext, rfl, hf, rfl, fun hrel => ?_⟩
      obtain ⟨hwrites, hevents⟩ := hfree hrel
      rw [State.dbCommit_history, hwrites, hevents, List.map_nil, List.append_nil]
    | inr code =>
      obtain ⟨f, herr, rfl⟩ := builderOp_of_cell_fault ha hcell
      obtain ⟨hne, -⟩ := builderOp_error hi herr
      exact ⟨_, dbOperation_error hk hf herr, dbFault_eq_faultedState hf hne⟩
  · rw [exec_builder hi, dbOperation_sticky hk hf, dbFault_sticky hf]

/-! ## Independence of the builders -/

/-- A sequence of word writes leaves a byte in every memory, or gives it one value in every memory. -/
theorem writeAll_leaves_or_sets (ws : List (Word × Word)) (a : Nat) :
    (∀ m : Memory, (m.writeAll ws).get a = m.get a) ∨ ∃ b, ∀ m : Memory, (m.writeAll ws).get a = some b := by
  induction ws with
  | nil => exact .inl fun m => rfl
  | cons w ws ih =>
    rcases ih with hleaves | ⟨b, hsets⟩
    · by_cases hw : a < w.1.toNat ∨ w.1.toNat + 4 ≤ a
      · exact .inl fun m => (hleaves _).trans (Memory.get_write32_off m w.2 hw)
      · obtain ⟨j, rfl⟩ := Nat.exists_eq_add_of_le (show w.1.toNat ≤ a by omega)
        exact .inr ⟨_, fun m => (hleaves _).trans (Memory.get_write32_at m w.1.toNat w.2 (by omega))⟩
    · exact .inr ⟨b, fun m => hsets _⟩

/-- A byte that a sequence of word writes changes in one memory has its new value after them in every memory. -/
theorem get_writeAll_of_changed {m : Memory} {ws : List (Word × Word)} {a : Nat}
    (h : (m.writeAll ws).get a ≠ m.get a) (m' : Memory) : (m'.writeAll ws).get a = (m.writeAll ws).get a := by
  rcases writeAll_leaves_or_sets ws a with hleaves | ⟨b, hsets⟩
  · exact absurd (hleaves m) h
  · rw [hsets, hsets]

/-- A builder's effect writes only inside the array of the chain it leaves (R224). -/
theorem builderOp_writes_inside {c : Config} {i : Instr} {k : DbId} {d : DbUnit} {e : DbEffect}
    (hk : builderOf i = some k) (he : builderOp c i d = .ok e) (m : Memory) {a : Nat}
    (ha : a < e.chain.base.toNat ∨ e.chain.base.toNat + 16 * e.chain.count.toNat ≤ a) :
    (m.writeAll e.writes).get a = m.get a := by
  rcases builderOp_ok hk he with
    ⟨dir, buf, l, m', desc, -, -, hcheck, rfl⟩ | ⟨-, -, rfl⟩ | ⟨-, -, rfl⟩ | ⟨-, -, rfl⟩
  · obtain ⟨-, -, -, ⟨-, harray, -⟩, -⟩ := checkOperands_none.1 hcheck
    simp only [buildEffect, ceilDiv_toNat harray] at ha
    exact get_chainWrites_off m harray ha
  all_goals rfl

/-- A builder instruction takes a fault step or commits an effect, and the same one in every state with the same parameters
and the same registers of its builder (R224). -/
theorem exec_builder_local {i : Instr} {k : DbId} {s t : State} (hk : builderOf i = some k) (h : exec i s = .next t) :
    (∃ f, ∀ s' : State, s'.cfg = s.cfg → s'.db k = s.db k → exec i s' = .next (s'.dbFault k f)) ∨
      ∃ e, builderOp s.cfg i (s.db k) = .ok e ∧
        ∀ s' : State, s'.cfg = s.cfg → s'.db k = s.db k → exec i s' = .next (s'.dbCommit k e) := by
  rw [exec_builder hk] at h
  obtain ⟨hdb, ⟨hf, -⟩ | ⟨f, hf, herr, -⟩ | ⟨e, hf, hok, -⟩⟩ := dbOperation_next h
  · refine .inl ⟨.sticky, fun s' hcfg hreg => ?_⟩
    rw [exec_builder hk, dbOperation_sticky (by rw [hcfg, hdb]) (by rw [hreg, hf])]
  · refine .inl ⟨f, fun s' hcfg hreg => ?_⟩
    rw [exec_builder hk, dbOperation_error (by rw [hcfg, hdb]) (by rw [hreg, hf]) (by rw [hcfg, hreg, herr])]
  · refine .inr ⟨e, hok, fun s' hcfg hreg => ?_⟩
    rw [exec_builder hk, dbOperation_ok (by rw [hcfg, hdb]) (by rw [hreg, hf]) (by rw [hcfg, hreg, hok])]

/-- A builder instruction leaves the framer, the other builders, the inputs and every byte outside the chain it leaves. -/
theorem exec_builder_frame {i : Instr} {k : DbId} {s t : State} (hk : builderOf i = some k) (h : exec i s = .next t) :
    t.fr0 = s.fr0 ∧ (∀ j, j ≠ k → t.db j = s.db j) ∧ t.inputs = s.inputs ∧
      ∀ a, a < (t.db k).chain.base.toNat ∨
        (t.db k).chain.base.toNat + 16 * (t.db k).chain.count.toNat ≤ a → t.mem.get a = s.mem.get a := by
  rcases exec_builder_local hk h with ⟨f, hall⟩ | ⟨e, hok, hall⟩
  · cases (hall s rfl rfl).symm.trans h
    exact ⟨State.dbFault_fr0 s k f, fun _ hj => State.dbFault_db_ne s f hj, State.dbFault_inputs s k f,
      fun a _ => by rw [State.dbFault_mem]⟩
  · cases (hall s rfl rfl).symm.trans h
    refine ⟨State.dbCommit_fr0 s k e, fun _ hj => State.dbCommit_db_ne s e hj, State.dbCommit_inputs s k e,
      fun a hout => ?_⟩
    rw [State.dbCommit_db_same] at hout
    rw [State.dbCommit_mem]
    exact builderOp_writes_inside hk hok s.mem hout

/-- Settles O57: a fault step and a commit touch the instance alone, and which of them it is depends on it alone. -/
theorem builderInstancesAreIndependent : Obligations.BuilderInstancesAreIndependent := by
  unfold Obligations.BuilderInstancesAreIndependent
  refine fun i k s t hk h => ⟨exec_builder_frame hk h, fun s' hcfg hreg => ?_⟩
  rcases exec_builder_local hk h with ⟨f, hall⟩ | ⟨e, -, hall⟩
  · cases (hall s rfl rfl).symm.trans h
    refine ⟨_, hall s' hcfg hreg, ?_, ⟨[], ?_, ?_⟩, fun a hchanged => ?_⟩
    · rw [State.dbFault_db_same, State.dbFault_db_same, hreg]
    · rw [State.dbFault_history, List.append_nil]
    · rw [State.dbFault_history, List.append_nil]
    · rw [State.dbFault_mem] at hchanged
      exact absurd rfl hchanged
  · cases (hall s rfl rfl).symm.trans h
    refine ⟨_, hall s' hcfg hreg, ?_, ⟨(e.writes.map fun w => .memWrite w.1 w.2) ++ e.events, ?_, ?_⟩,
      fun a hchanged => ?_⟩
    · rw [State.dbCommit_db_same, State.dbCommit_db_same, hreg]
    · rw [State.dbCommit_history, List.append_assoc]
    · rw [State.dbCommit_history, List.append_assoc]
    · rw [State.dbCommit_mem] at hchanged
      rw [State.dbCommit_mem, State.dbCommit_mem]
      exact get_writeAll_of_changed hchanged s'.mem
end Sys2Proof.Proofs

/-! PROOFS. The statements on faults (FaultStaysUntilReset, FramerFaultLeavesOnlyItsStatus,
BuildReportsTheFirstOperandFault, BuilderFaultIsPrecise): what a faulted builder keeps, which responses of the framer are
faults, and what the fault step of a builder writes. -/

namespace Sys2Proof.Proofs

open Sys2Proof Sys2Proof.Machine Sys2Proof.Claims

/-! ## A builder's fault stays (R253, R262) -/

/-- Builder `k` has the same sticky flag, fault code and chain registers in both states; its port and its response latches
may differ. -/
def SameFaultAndChain (k : DbId) (s t : State) : Prop :=
  (t.db k).faulted = (s.db k).faulted ∧ (t.db k).faultCode = (s.db k).faultCode ∧ (t.db k).chain = (s.db k).chain

theorem sameFaultAndChain_of_db_eq {k : DbId} {s t : State} (h : t.db k = s.db k) : SameFaultAndChain k s t := by
  unfold SameFaultAndChain
  rw [h]
  exact ⟨rfl, rfl, rfl⟩

theorem sameFaultAndChain_setPort (k : DbId) (s : State) (u : UnitId) (p : Port) :
    SameFaultAndChain k s (s.setPort u p) := by
  obtain ⟨-, hchain, hfaulted, hcode⟩ := State.setPort_db_fields s u p k
  exact ⟨hfaulted, hcode, hchain⟩

/-- Replacing the response latches of any builder, as F_MALFORMED and F_STICKY do, leaves the fault and the chain. -/
theorem sameFaultAndChain_setRsp (k : DbId) (s : State) (j : DbId) (r : Rsp) :
    SameFaultAndChain k s (s.setDb j { s.db j with rsp := r }) := by
  by_cases hkj : k = j
  · subst hkj
    unfold SameFaultAndChain
    rw [State.setDb_db_same]
    exact ⟨rfl, rfl, rfl⟩
  · exact sameFaultAndChain_of_db_eq (State.setDb_db_ne s _ hkj)

/-- Every instruction leaves the fault and the chain of a faulted builder: its own operations answer F_STICKY, and another
builder's do not reach it. -/
theorem exec_keeps_fault {i : Instr} {s t : State} {k : DbId} (hf : (s.db k).faulted = true) (h : exec i s = .next t) :
    SameFaultAndChain k s t := by
  have other : ∀ {j : DbId}, (s.db j).faulted = false → k ≠ j := by
    rintro j hj rfl
    rw [hf] at hj
    cases hj
  rcases exec_next h with ⟨-, rfl⟩ | ⟨j, _, _, -, -, rfl⟩ |
    ⟨j, -, -, ⟨hj, rfl⟩ | ⟨f, hj, -, rfl⟩ | ⟨e, hj, -, rfl⟩⟩
  · exact sameFaultAndChain_of_db_eq (State.db_with_fr0 s _ k)
  · exact sameFaultAndChain_setRsp k s j _
  · rw [dbFault_sticky hj]
    exact sameFaultAndChain_setRsp k s j _
  · exact sameFaultAndChain_of_db_eq (State.dbFault_db_ne s f (other hj))
  · exact sameFaultAndChain_of_db_eq (State.dbCommit_db_ne s e (other hj))

/-- A turn of any instance leaves the fault and the chain of a faulted builder. -/
theorem serve_keeps_fault {u : UnitId} {s t : State} {k : DbId} (hf : (s.db k).faulted = true)
    (h : serve u s = .next t) : SameFaultAndChain k s t := by
  rcases serve_next h with ⟨r, -, hexec⟩ | ⟨-, rfl⟩
  · obtain ⟨hfaulted, hcode, hchain⟩ : SameFaultAndChain k s (s.consume u) := sameFaultAndChain_setPort k s u _
    obtain ⟨hfaulted', hcode', hchain'⟩ := exec_keeps_fault (hfaulted.trans hf) hexec
    exact ⟨hfaulted'.trans hfaulted, hcode'.trans hcode, hchain'.trans hchain⟩
  · rcases s.latchNext_cases u with hsame | ⟨r, rest, -, hset⟩
    · rw [hsame]
      exact sameFaultAndChain_of_db_eq rfl
    · rw [hset]
      exact sameFaultAndChain_setPort k s u _

/-- A step that is not the RESET of a faulted builder leaves that builder's fault and chain. -/
theorem step_keeps_fault {s t : State} {k : DbId} (hf : (s.db k).faulted = true) (h : step s = .next t)
    (hreset : ∀ rest, s.inputs ≠ .reset (.db k) :: rest) : SameFaultAndChain k s t := by
  have taken : ∀ {rest : List Input} {t' : State},
      SameFaultAndChain k ({ s with inputs := rest } : State) t' → SameFaultAndChain k s t' := by
    intro rest t' hkept
    rwa [SameFaultAndChain, State.db_with_inputs] at hkept
  have hf' : ∀ rest, (({ s with inputs := rest } : State).db k).faulted = true := by
    intro rest
    rw [State.db_with_inputs, hf]
  rcases step_next h with ⟨u, bytes, rest, -, -, rfl⟩ | ⟨u, rest, -, -, hserve⟩ | ⟨u, rest, hin, -, rfl⟩ |
    ⟨a, b, rest, -, rfl⟩ | ⟨u, -, -, hserve⟩ | ⟨-, -, rfl⟩
  · exact taken (sameFaultAndChain_setPort k _ u _)
  · exact taken (serve_keeps_fault (hf' rest) hserve)
  · refine taken (sameFaultAndChain_of_db_eq (resetUnit_db_ne _ ?_))
    rintro rfl
    exact hreset rest hin
  · exact taken (sameFaultAndChain_of_db_eq (State.db_extWrite _ a b k))
  · exact serve_keeps_fault hf hserve
  · exact sameFaultAndChain_of_db_eq rfl

/-- Settles O56: what a step keeps of a faulted builder includes that it is faulted. -/
theorem faultStaysUntilReset : Obligations.FaultStaysUntilReset := by
  unfold Obligations.FaultStaysUntilReset
  intro s t k hf h hreset
  obtain ⟨hfaulted, hcode, hchain⟩ := step_keeps_fault hf h hreset
  exact ⟨hfaulted.trans hf, hcode, hchain⟩

/-! ## A builder's fault is precise (R254) -/

/-- The fault step of a builder writes its response, the sticky flag and the first code alone; F_STICKY is raised only
after an earlier fault. -/
theorem dbFault_eq {s : State} {k : DbId} {c : Status} (hc : (s.db k).faulted = false → c ≠ .sticky) :
    s.dbFault k c = s.setDb k { s.db k with
      rsp := statusOnly (statusCode c)
      faulted := true
      faultCode := if (s.db k).faulted then (s.db k).faultCode else statusCode c } := by
  cases hf : (s.db k).faulted with
  | false => exact dbFault_eq_faultedState hf (hc hf)
  | true =>
    rw [State.dbFault, if_neg (by simp [hf])]
    rfl

/-- A builder instruction that does not answer OK has taken a fault step, F_STICKY's only after an earlier fault: an effect
answers OK. -/
theorem exec_builder_of_fault {i : Instr} {k : DbId} {s t : State} (hk : builderOf i = some k) (h : exec i s = .next t)
    (hstatus : (t.db k).rsp.status ≠ 0x00) :
    ∃ c, ((s.db k).faulted = false → c ≠ .sticky) ∧ t = s.dbFault k c := by
  rw [exec_builder hk] at h
  obtain ⟨-, ⟨hf, rfl⟩ | ⟨f, -, herr, rfl⟩ | ⟨e, -, -, rfl⟩⟩ := dbOperation_next h
  · exact ⟨.sticky, by simp [hf], rfl⟩
  · obtain ⟨hne, -⟩ := builderOp_error hk herr
    exact ⟨f, fun _ => hne, rfl⟩
  · rw [State.dbCommit_db_same] at hstatus
    exact absurd rfl hstatus

/-- Settles O55: the instruction took a fault step, and its code is the status answered. -/
theorem builderFaultIsPrecise : Obligations.BuilderFaultIsPrecise := by
  unfold Obligations.BuilderFaultIsPrecise
  intro i k s t hk h hstatus
  obtain ⟨c, hc, rfl⟩ := exec_builder_of_fault hk h hstatus
  have hcode : ((s.dbFault k c).db k).rsp.status = statusCode c := by
    rw [State.dbFault_db_same]
    rfl
  rw [hcode, dbFault_eq hc]

/-! ## The first operand check that fails (R256) -/

/-- Settles O49: `checkOperands` asks the five checks in this order, and a form of BUILD answers the first that fails. -/
theorem buildReportsTheFirstOperandFault : Obligations.BuildReportsTheFirstOperandFault := by
  unfold Obligations.BuildReportsTheFirstOperandFault
  intro s k dir buf l m desc i hi hk hf he badLen badChunk badAlign badAddr overlap
  have reports : ∀ f, checkOperands (sizeMax s.cfg k) buf.toNat l.toNat m.toNat desc.toNat = some f →
      exec i s = .next (faultedState s k (statusCode f)) := fun _ => exec_buildForm_operandFault hi hk hf he
  refine ⟨fun h1 => reports .chainLen ?_, fun h1 h2 => reports .chainChunk ?_, fun h1 h2 h3 => reports .chainAlign ?_,
    fun h1 h2 h3 h4 => reports .chainAddr ?_, fun h1 h2 h3 h4 h5 => reports .chainOverlap ?_⟩
  · exact if_pos h1
  · exact (if_neg h1).trans (if_pos h2)
  · exact (if_neg h1).trans ((if_neg h2).trans (if_pos h3))
  · exact (if_neg h1).trans ((if_neg h2).trans ((if_neg h3).trans (if_pos h4)))
  · exact (if_neg h1).trans ((if_neg h2).trans ((if_neg h3).trans ((if_neg h4).trans (if_pos h5))))

/-! ## The framer's faults (R252) -/

theorem framerRsp_framew_ok_or_faulted (ms : EccMasks) (data : List Byte) :
    (framerRsp ms (.framew data)).status = 0x00 ∨ ∃ c, framerRsp ms (.framew data) = Rsp.faulted c := by
  simp only [framerRsp]
  split
  · exact .inr ⟨_, rfl⟩
  · split
    · exact .inr ⟨_, rfl⟩
    · exact .inl rfl

/-- What the framer answers is OK, or a fault's code with every other latch empty (R34), for every instruction. -/
theorem framerRsp_ok_or_faulted (ms : EccMasks) (i : Instr) :
    (framerRsp ms i).status = 0x00 ∨ ∃ c, framerRsp ms i = Rsp.faulted c := by
  cases i
  case short data =>
    match data with
    | [] => exact .inr ⟨.shortLen, rfl⟩
    | [_] => exact .inl rfl
    | [_, _] => exact .inl rfl
    | _ :: _ :: _ :: _ => exact .inr ⟨.shortLen, rfl⟩
  case frame data =>
    simp only [framerRsp]
    split
    · exact .inr ⟨_, rfl⟩
    · exact .inl rfl
  case framew data => exact framerRsp_framew_ok_or_faulted ms data
  case sendcmd data => exact framerRsp_framew_ok_or_faulted ms data
  case reserved => exact .inr ⟨.malformed, rfl⟩
  all_goals exact .inl rfl

/-- Settles O39: a response that is not OK is a status alone, and the framer's answers do not depend on it
(`framerAnswersFromTheRequestAlone`). -/
theorem framerFaultLeavesOnlyItsStatus : Obligations.FramerFaultLeavesOnlyItsStatus := by
  unfold Obligations.FramerFaultLeavesOnlyItsStatus
  refine fun i s t hi h hstatus => ⟨?_, fun j hj => ?_⟩
  · rw [exec_framer hi] at h
    cases h
    rcases framerRsp_ok_or_faulted s.cfg.eccMasks i with hok | ⟨c, hc⟩
    · exact absurd hok hstatus
    · rw [hc]
      rfl
  · obtain ⟨rsp, hrsp⟩ := framerAnswersFromTheRequestAlone j s.cfg hj
    exact ⟨rsp, hrsp t (exec_cfg h), hrsp s rfl⟩

end Sys2Proof.Proofs

/-! PROOFS. The statements on RESET and power-on (ResetInputRestoresOneInstance, PowerOnIsResetOfEveryInstance) and on the
two turns of a waiting request (WaitingRequestIsPerformedInTwoSteps): what a RESET input does, and that an instance is still
the one served once its waiting request is in its latches. -/

namespace Sys2Proof.Proofs

open Sys2Proof Sys2Proof.Machine Sys2Proof.Claims

/-! ## Ports under updates of other ports -/

theorem setPort_port_ne (s : State) {u v : UnitId} (p : Port) (h : v ≠ u) : (s.setPort u p).port v = s.port v := by
  cases u with
  | fr0 =>
    cases v with
    | fr0 => exact absurd rfl h
    | db j => simp
  | db k =>
    cases v with
    | fr0 => simp
    | db j =>
      have hj : j ≠ k := fun e => h (by rw [e])
      simp [State.setDb_db_ne s _ hj]

theorem setPort_setPort (s : State) (u : UnitId) (p q : Port) : (s.setPort u p).setPort u q = s.setPort u q := by
  cases u <;> simp

/-- Consuming the request in the latches leaves what waits at the port. -/
theorem consume_setPort (s : State) (u : UnitId) (p : Port) :
    (s.setPort u p).consume u = s.setPort u { latch := none, wire := p.wire } := by
  rw [State.consume, State.setPort_port_same, setPort_setPort]

/-! ## The instance served (R298) -/

/-- Whether an instance has work is a question to its own port. -/
theorem hasWork_setPort_ne (s : State) {u v : UnitId} (p : Port) (h : v ≠ u) :
    (s.setPort u p).hasWork v = s.hasWork v := by
  simp only [State.hasWork, State.setPort_cfg, setPort_port_ne s p h]

theorem hasWork_of_nextServed {s : State} {u : UnitId} (h : s.nextServed = some u) : s.hasWork u = true :=
  List.find?_some h

theorem nextServed_congr {s t : State} (h : ∀ v, t.hasWork v = s.hasWork v) : t.nextServed = s.nextServed := by
  simp only [State.nextServed, h]

/-- The instance served keeps its turn when its port is replaced by one with a request in the latches. -/
theorem nextServed_setPort_latched {s : State} {u : UnitId} (h : s.nextServed = some u) (r : Request) (wire : List Byte) :
    (s.setPort u { latch := some r, wire := wire }).nextServed = some u := by
  have hu := hasWork_of_nextServed h
  rw [← h]
  refine nextServed_congr fun v => ?_
  by_cases hv : v = u
  · subst hv
    obtain ⟨hunit, -⟩ := (hasWork_iff s v).1 hu
    rw [hu, hasWork_iff, State.setPort_cfg, State.setPort_port_same]
    exact ⟨hunit, .inl (by simp)⟩
  · exact hasWork_setPort_ne s _ hv

/-- Settles O13: the first step latches the request, the instance is still the one served, and the second step consumes and
performs the request. -/
theorem waitingRequestIsPerformedInTwoSteps : Obligations.WaitingRequestIsPerformedInTwoSteps := by
  unfold Obligations.WaitingRequestIsPerformedInTwoSteps
  intro s u i front later hi he hin hnext hport
  obtain ⟨r, hparse, hdecode⟩ := parseRequest_encode hi he later
  refine ⟨s.setPort u { latch := some r, wire := later }, ?_, ?_⟩
  · rw [step_nextServed hin hnext, serve_idle (by rw [hport]), latchNext_of_ok (by rw [hport]; exact hparse)]
  · have hin' := (State.setPort_inputs s u { latch := some r, wire := later }).trans hin
    have hlatch := congrArg Port.latch (State.setPort_port_same s u { latch := some r, wire := later })
    rw [step_nextServed hin' (nextServed_setPort_latched hnext r later), serve_latched hlatch, hdecode, consume_setPort]

/-! ## RESET (R280 to R282) -/

/-- The RESET input of an existing instance. -/
theorem step_reset {u : UnitId} {s : State} {rest : List Input} (hu : s.cfg.hasUnit u = true)
    (hin : s.inputs = .reset u :: rest) : step s = .next (({ s with inputs := rest } : State).resetUnit u) := by
  simp [step, hin, takeInput, hu]

/-- Settles O15: the input replaces the registers of its one instance by R280's values. -/
theorem resetInputRestoresOneInstance : Obligations.ResetInputRestoresOneInstance := by
  unfold Obligations.ResetInputRestoresOneInstance
  refine ⟨fun s rest hin => ?_, fun s k rest hk hin => ?_⟩
  · have hunit : s.cfg.hasUnit .fr0 = true := rfl
    rw [step_reset hunit hin]
    rfl
  · have hunit : s.cfg.hasUnit (.db k) = true := hk
    rw [step_reset hunit hin]
    rfl

/-- At power-on every builder is at its reset values. -/
theorem reset_db (k : DbId) : State.reset.db k = DbUnit.reset := by
  cases k <;> rfl

/-- Settles O16: every instance is at its reset values, and the model's own fields list nothing. -/
theorem powerOnIsResetOfEveryInstance : Obligations.PowerOnIsResetOfEveryInstance := by
  unfold Obligations.PowerOnIsResetOfEveryInstance
  exact ⟨rfl, reset_db, rfl, rfl, rfl⟩

end Sys2Proof.Proofs
